-- ==== Sys2Proof/Word.lean ====
section
/-! DEFINITION. The three bit-vector types of the core: bytes, words and register fields (00_scope.md R8, R9; 10_state.md R24). -/

namespace Sys2Proof

/-- A byte of memory (00_scope.md R8). -/
abbrev Byte := BitVec 8

/-- A 32-bit word: every register, immediate, displacement, target and address (00_scope.md R9).
`uint(w)` of the spec is `w.toNat`, `sint(w)` is `w.toInt`; `+`, `-` and `*` on words are modulo 2^32. -/
abbrev Word := BitVec 32

/-- A 4-bit register specifier as it stands in the register byte (30_encoding.md R82): 0..7 name a register, 8..15 none. -/
abbrev RegField := BitVec 4

end Sys2Proof
end

