-- ==== Sys2Proof/Config.lean ====
section
/-! DEFINITION. The parameters the spec leaves open and a model takes as arguments (00_scope.md R7). They are plain data, gathered in
`Config`, with the free values of the host's answers after it; their reference values stand in Decode.lean (the opcode map) and Machine/Reference.lean (the others). -/

namespace Sys2Proof

/-- The 28 instructions by name, in the order of 30_encoding.md R84. -/
inductive Opcode where
  | nop | halt
  | rrmovl | irmovl | rmmovl | mrmovl
  | addl | subl | andl | xorl | mull | cmpl
  | jmp | jle | jl | je | jne | jge | jg
  | call | ret | pushl | popl
  | readb | readl | writeb | writel
  | movsbl
deriving DecidableEq, Repr

/-- The four instruction formats (30_encoding.md R85). -/
inductive Format where
  | F1 | F2 | F5 | F6
deriving DecidableEq, Repr

/-- `OpcodeMap`: the byte value of each opcode (00_scope.md R7, 30_encoding.md R81, R84). -/
structure OpcodeMap where
  (nop halt : Byte)
  (rrmovl irmovl rmmovl mrmovl : Byte)
  (addl subl andl xorl mull cmpl : Byte)
  (jmp jle jl je jne jge jg : Byte)
  (call ret pushl popl : Byte)
  (readb readl writeb writel : Byte)
  (movsbl : Byte)
deriving DecidableEq, Repr

/-- `RegFieldFault`: the status raised when a field that must name a register holds 8..15 (30_encoding.md R89). -/
inductive RegFieldFault where
  | badAddress
  | badInstruction
deriving DecidableEq, Repr

/-- `SPSelfMode`: what PUSHL and POPL do when they name SP itself (45_call_stack.md R162, R163). -/
inductive SPSelfMode where
  | literal
  | classic
deriving DecidableEq, Repr

/-- `MovsblFieldOrder`: which nibble of MOVSBL holds the base (47_movsbl.md R180). -/
inductive MovsblFieldOrder where
  | baseHigh
  | baseLow
deriving DecidableEq, Repr

/-- `Capacity` ranges over 0 .. 2^31 − 1 (10_state.md R34), so the bound is part of its type. -/
abbrev Capacity := Fin 2147483648

/-- The configuration of a run, fixed from its start to its end (00_scope.md R7, 10_state.md R37). -/
structure Config where
  /-- The size of the memory image in bytes (10_state.md R34). -/
  capacity         : Capacity
  opcodes          : OpcodeMap
  regFieldFault    : RegFieldFault
  spSelfMode       : SPSelfMode
  movsblFieldOrder : MovsblFieldOrder
deriving DecidableEq, Repr

/-! ### The host's answers (46_io.md R170) -/

/-- The two kinds of read the core asks of the host. -/
inductive ReadKind where
  | byte
  | long
deriving DecidableEq, Repr

/-- `HostIn.readByte` of an arbitrary host: its answer after the successful reads `past`, the latest first. FREE VALUE (log 6): any
host's answers, for any number of reads. `id` tells hosts apart. -/
opaque Config.hostByte (id : Nat) (past : List ReadKind) : Option Byte

/-- `HostIn.readLong` of an arbitrary host, as `Config.hostByte`. FREE VALUE (log 6). -/
opaque Config.hostLong (id : Nat) (past : List ReadKind) : Option Word

end Sys2Proof
end

