-- ==== Sys2Proof/Syntax.lean ====
section
/-! DEFINITION. The instructions: one constructor per row of spec/opcode_table.json, with the fields its format carries
(30_encoding.md R85, R86). Register fields are kept as the 4-bit values the register byte holds, the unused ones too, because the
decoder reads them before they are checked (40_step.md R103, R104). -/

namespace Sys2Proof

/-- An instruction. `rA` and `rB` are the high and low nibble of the register byte, `V` the immediate or displacement, `dest` the
absolute target. Which role a field has is 30_encoding.md R86. -/
inductive Instr where
  | nop
  | halt
  | rrmovl (rA rB : RegField)
  | irmovl (rA rB : RegField) (V : Word)
  | rmmovl (rA rB : RegField) (V : Word)
  | mrmovl (rA rB : RegField) (V : Word)
  | addl (rA rB : RegField)
  | subl (rA rB : RegField)
  | andl (rA rB : RegField)
  | xorl (rA rB : RegField)
  | mull (rA rB : RegField)
  | cmpl (rA rB : RegField)
  | jmp (dest : Word)
  | jle (dest : Word)
  | jl (dest : Word)
  | je (dest : Word)
  | jne (dest : Word)
  | jge (dest : Word)
  | jg (dest : Word)
  | call (dest : Word)
  | ret
  | pushl (rA rB : RegField)
  | popl (rA rB : RegField)
  | readb (rA rB : RegField) (V : Word)
  | readl (rA rB : RegField) (V : Word)
  | writeb (rA rB : RegField) (V : Word)
  | writel (rA rB : RegField) (V : Word)
  | movsbl (rA rB : RegField) (V : Word)
deriving DecidableEq, Repr

end Sys2Proof
end

