-- ==== Sys2Proof/WellFormed.lean ====
section
/-! DEFINITION. The field checks of the decoder (40_step.md R104): an instruction is well formed when none of them raises. An
ill-formed instruction is still an instruction: it decodes, and running it ends in the fault its check names. -/

namespace Sys2Proof

/-- A field value 0..7 names a register, 8..15 names none (30_encoding.md R87). -/
def namesRegister (f : RegField) : Bool := decide (f.toNat < 8)

/-- The checks of 40_step.md R104, by the roles of 30_encoding.md R86: IRMOVL's rA must name no register (R88), every field with a
role must name one (R89), an unused field may hold anything (R90). -/
def Instr.wellFormed : Instr → Bool
  | .nop | .halt | .ret => true
  | .jmp _ | .jle _ | .jl _ | .je _ | .jne _ | .jge _ | .jg _ | .call _ => true
  | .irmovl rA rB _ => !namesRegister rA && namesRegister rB
  | .rrmovl rA rB | .addl rA rB | .subl rA rB | .andl rA rB | .xorl rA rB | .mull rA rB | .cmpl rA rB =>
    namesRegister rA && namesRegister rB
  | .rmmovl rA rB _ | .mrmovl rA rB _ | .movsbl rA rB _ => namesRegister rA && namesRegister rB
  | .pushl rA _ | .popl rA _ => namesRegister rA
  | .readb rA _ _ | .readl rA _ _ | .writeb rA _ _ | .writel rA _ _ => namesRegister rA

end Sys2Proof
end

