-- ==== Sys2Proof/Decode.lean ====
section
/-! DEFINITION. The byte codec, the opcode map and its reference value, the decoder (total on any bytes, rejecting by name) and the
encoder written from the same tables (30_encoding.md R80 to R92, 20_memory.md R54, R55). -/

namespace Sys2Proof

/-! ### The little-endian codec and sign extension -/

/-- `LE32`: the byte at the lowest address is the least significant (20_memory.md R54; `cat` is 00_scope.md R10). -/
def le32 (b0 b1 b2 b3 : Byte) : Word := b3 ++ b2 ++ b1 ++ b0

/-- `LE32enc`: the four bytes of a word, lowest address first (20_memory.md R55). -/
def le32Bytes (w : Word) : List Byte :=
  [w.extractLsb' 0 8, w.extractLsb' 8 8, w.extractLsb' 16 8, w.extractLsb' 24 8]

/-- `sext_32` of a byte (00_scope.md R10). -/
def sext32 (b : Byte) : Word := b.signExtend 32

/-- The `rA` field of a register byte: bits 7:4 (30_encoding.md R82). -/
def regFieldA (b : Byte) : RegField := b.extractLsb' 4 4

/-- The `rB` field of a register byte: bits 3:0 (30_encoding.md R82). -/
def regFieldB (b : Byte) : RegField := b.extractLsb' 0 4

/-- The register byte that holds two fields (30_encoding.md R82). -/
def regByte (rA rB : RegField) : Byte := rA ++ rB

/-! ### The opcode map -/

/-- Every opcode once, in the order of 30_encoding.md R84. -/
def Opcode.all : List Opcode :=
  [.nop, .halt, .rrmovl, .irmovl, .rmmovl, .mrmovl, .addl, .subl, .andl, .xorl, .mull, .cmpl, .jmp, .jle, .jl, .je, .jne, .jge,
   .jg, .call, .ret, .pushl, .popl, .readb, .readl, .writeb, .writel, .movsbl]

/-- The format of each opcode (30_encoding.md R85). -/
def Opcode.format : Opcode → Format
  | .nop | .halt | .ret => .F1
  | .rrmovl | .addl | .subl | .andl | .xorl | .mull | .cmpl | .pushl | .popl => .F2
  | .jmp | .jle | .jl | .je | .jne | .jge | .jg | .call => .F5
  | .irmovl | .rmmovl | .mrmovl | .readb | .readl | .writeb | .writel | .movsbl => .F6

/-- The length in bytes of each format (30_encoding.md R85). -/
def Format.length : Format → Nat
  | .F1 => 1
  | .F2 => 2
  | .F5 => 5
  | .F6 => 6

/-- The length of an instruction is a function of its opcode alone (30_encoding.md R92). -/
def Opcode.length (op : Opcode) : Nat := op.format.length

/-- The byte an opcode map gives an opcode. -/
def OpcodeMap.byteOf (m : OpcodeMap) : Opcode → Byte
  | .nop => m.nop
  | .halt => m.halt
  | .rrmovl => m.rrmovl
  | .irmovl => m.irmovl
  | .rmmovl => m.rmmovl
  | .mrmovl => m.mrmovl
  | .addl => m.addl
  | .subl => m.subl
  | .andl => m.andl
  | .xorl => m.xorl
  | .mull => m.mull
  | .cmpl => m.cmpl
  | .jmp => m.jmp
  | .jle => m.jle
  | .jl => m.jl
  | .je => m.je
  | .jne => m.jne
  | .jge => m.jge
  | .jg => m.jg
  | .call => m.call
  | .ret => m.ret
  | .pushl => m.pushl
  | .popl => m.popl
  | .readb => m.readb
  | .readl => m.readl
  | .writeb => m.writeb
  | .writel => m.writel
  | .movsbl => m.movsbl

/-- The opcode a byte selects, if any (30_encoding.md R81, R91). -/
def OpcodeMap.opcodeOf (m : OpcodeMap) (b : Byte) : Option Opcode :=
  Opcode.all.find? fun op => decide (m.byteOf op = b)

/-- A map is legal when no two opcodes share a byte (30_encoding.md R81: "each instruction is one opcode byte value"). -/
abbrev OpcodeMap.wf (m : OpcodeMap) : Prop := (Opcode.all.map m.byteOf).Nodup

/-- The reference opcode map (30_encoding.md R84). PRESUMED, unsafe (log 9): only 0x10 and 0x30 are the source's. -/
def OpcodeMap.reference : OpcodeMap where
  nop := 0x00
  halt := 0x10
  rrmovl := 0x20
  irmovl := 0x30
  rmmovl := 0x40
  mrmovl := 0x50
  addl := 0x60
  subl := 0x61
  andl := 0x62
  xorl := 0x63
  mull := 0x64
  cmpl := 0x65
  jmp := 0x70
  jle := 0x71
  jl := 0x72
  je := 0x73
  jne := 0x74
  jge := 0x75
  jg := 0x76
  call := 0x80
  ret := 0x90
  pushl := 0xA0
  popl := 0xB0
  readb := 0xC0
  readl := 0xC1
  writeb := 0xD0
  writel := 0xD1
  movsbl := 0xE0

/-! ### The decoder -/

/-- Why a byte sequence is no instruction. -/
inductive DecodeError where
  /-- There is no opcode byte. -/
  | noOpcodeByte
  /-- The opcode byte is in no row of the map (30_encoding.md R91). -/
  | illegalOpcode (b : Byte)
  /-- The opcode is legal and the bytes end before the instruction does (40_step.md R103). -/
  | truncated (op : Opcode)
deriving DecidableEq, Repr

/-- The instruction of a known opcode, its fields read from the bytes at offsets 1 to 5 from the opcode byte
(40_step.md R103, 30_encoding.md R82, R83). -/
def assemble (op : Opcode) (byteAt : Nat → Byte) : Instr :=
  let rA := regFieldA (byteAt 1)
  let rB := regFieldB (byteAt 1)
  let dest := le32 (byteAt 1) (byteAt 2) (byteAt 3) (byteAt 4)
  let V := le32 (byteAt 2) (byteAt 3) (byteAt 4) (byteAt 5)
  match op with
  | .nop => .nop
  | .halt => .halt
  | .rrmovl => .rrmovl rA rB
  | .irmovl => .irmovl rA rB V
  | .rmmovl => .rmmovl rA rB V
  | .mrmovl => .mrmovl rA rB V
  | .addl => .addl rA rB
  | .subl => .subl rA rB
  | .andl => .andl rA rB
  | .xorl => .xorl rA rB
  | .mull => .mull rA rB
  | .cmpl => .cmpl rA rB
  | .jmp => .jmp dest
  | .jle => .jle dest
  | .jl => .jl dest
  | .je => .je dest
  | .jne => .jne dest
  | .jge => .jge dest
  | .jg => .jg dest
  | .call => .call dest
  | .ret => .ret
  | .pushl => .pushl rA rB
  | .popl => .popl rA rB
  | .readb => .readb rA rB V
  | .readl => .readl rA rB V
  | .writeb => .writeb rA rB V
  | .writel => .writel rA rB V
  | .movsbl => .movsbl rA rB V

/-- The instruction at the head of a byte sequence, and the bytes after it. -/
def decode (m : OpcodeMap) (bytes : List Byte) : Except DecodeError (Instr × List Byte) :=
  match bytes with
  | [] => .error .noOpcodeByte
  | b :: _ =>
    match m.opcodeOf b with
    | none => .error (.illegalOpcode b)
    | some op =>
      if bytes.length < op.length then .error (.truncated op)
      else .ok (assemble op fun k => bytes.getD k 0, bytes.drop op.length)

/-! ### The encoder -/

/-- The opcode of an instruction. -/
def Instr.opcode : Instr → Opcode
  | .nop => .nop
  | .halt => .halt
  | .rrmovl _ _ => .rrmovl
  | .irmovl _ _ _ => .irmovl
  | .rmmovl _ _ _ => .rmmovl
  | .mrmovl _ _ _ => .mrmovl
  | .addl _ _ => .addl
  | .subl _ _ => .subl
  | .andl _ _ => .andl
  | .xorl _ _ => .xorl
  | .mull _ _ => .mull
  | .cmpl _ _ => .cmpl
  | .jmp _ => .jmp
  | .jle _ => .jle
  | .jl _ => .jl
  | .je _ => .je
  | .jne _ => .jne
  | .jge _ => .jge
  | .jg _ => .jg
  | .call _ => .call
  | .ret => .ret
  | .pushl _ _ => .pushl
  | .popl _ _ => .popl
  | .readb _ _ _ => .readb
  | .readl _ _ _ => .readl
  | .writeb _ _ _ => .writeb
  | .writel _ _ _ => .writel
  | .movsbl _ _ _ => .movsbl

/-- The bytes after the opcode byte, as the formats of 30_encoding.md R85 lay them out. -/
def Instr.operandBytes : Instr → List Byte
  | .nop | .halt | .ret => []
  | .rrmovl rA rB | .addl rA rB | .subl rA rB | .andl rA rB | .xorl rA rB | .mull rA rB | .cmpl rA rB
  | .pushl rA rB | .popl rA rB => [regByte rA rB]
  | .jmp d | .jle d | .jl d | .je d | .jne d | .jge d | .jg d | .call d => le32Bytes d
  | .irmovl rA rB V | .rmmovl rA rB V | .mrmovl rA rB V | .readb rA rB V | .readl rA rB V | .writeb rA rB V
  | .writel rA rB V | .movsbl rA rB V => regByte rA rB :: le32Bytes V

/-- The bytes of an instruction in memory order (30_encoding.md R80, R84, R85). -/
def encode (m : OpcodeMap) (i : Instr) : List Byte := m.byteOf i.opcode :: i.operandBytes

/-! ### The table's numbering of bits -/

/-- The bytes, lowest address first, of an instruction whose bits spec/opcode_table.json numbers `w`: bits 7:0 are the opcode byte,
bits 15:8 the next byte, and every bit at or above `nbits` is 0, up to the longest instruction (6 bytes). -/
def tableBytes (nbits w : Nat) : List Byte :=
  (List.range 6).map fun k => BitVec.ofNat 8 (w % 2 ^ nbits / 256 ^ k)

/-- What the decoder reads from a word of the opcode table, under the reference opcode map. -/
def decodeTableWord (nbits w : Nat) : Option Instr :=
  match decode OpcodeMap.reference (tableBytes nbits w) with
  | .ok (i, _) => some i
  | .error _ => none

end Sys2Proof
end

