-- ==== Sys2Proof/Machine/Data.lean ====
section
/-! DEFINITION. The data types State is made of: the register names and the register file, the flags, the status, the input channel,
the output events, the memory image, and the launch parameters of a run (10_state.md R20 to R43). -/

namespace Sys2Proof.Machine

/-- The eight general registers by the source's names, in index order (10_state.md R21). -/
inductive Reg where
  | A | C | D | B | SP | BP | SI | DI
deriving DecidableEq, Repr

/-- The register file: eight words (10_state.md R20). None is hard-wired or reserved (R22). -/
structure RegFile where
  (A C D B SP BP SI DI : Word)
deriving DecidableEq, Repr

/-- The three condition flags (10_state.md R25). -/
structure Flags where
  /-- Signed overflow. -/
  OF : Bool
  /-- Zero result (or a failed read). -/
  ZF : Bool
  /-- Negative result. -/
  SF : Bool
deriving DecidableEq, Repr

/-- The program status (10_state.md R31): RUNNING, and the three terminal values. -/
inductive Status where
  | running
  | halted
  | badAddress
  | badInstruction
deriving DecidableEq, Repr

/-- The position of the input channel (46_io.md R170: `InState`). A host is any pair of partial functions `readByte`, `readLong` on a
state of its own, so its answer to a read is a function of the successful reads made before. `host` is the position of an arbitrary
host; the other constructors are hosts whose answers are written out (DESIGN CHOICE, log 6). A failed read has no next position
(R170: `None`). -/
inductive InState where
  /-- An arbitrary host, after the successful reads `past`, the latest first; its answers are the free values of Config. -/
  | host (id : Nat) (past : List ReadKind)
  /-- Every read succeeds, for ever, with the same answers. -/
  | endless (b : Byte) (w : Word)
  /-- Both reads fail. -/
  | eof
  /-- A byte read succeeds, a long read fails. -/
  | byteOnly (b : Byte) (next : InState)
  /-- A long read succeeds, a byte read fails. -/
  | longOnly (w : Word) (next : InState)
  /-- Either read succeeds, each with its own next position. -/
  | either (b : Byte) (afterByte : InState) (w : Word) (afterLong : InState)
deriving DecidableEq, Repr

/-- An event of the output trace (46_io.md R175). -/
inductive OutEvent where
  | outByte (b : Byte)
  | outLong (w : Word)
deriving DecidableEq, Repr

/-- The memory image: (address, byte) cells, addresses strictly rising, no cell holding what an unlisted address reads as. -/
abbrev Memory := List Host.Cell

/-- What an address with no cell reads as: memory is zero-initialized (10_state.md R34, R42). -/
abbrev Memory.unlisted : Byte := 0

/-- The canonical form of a memory image. -/
abbrev Memory.wf (m : Memory) : Prop :=
  m.Pairwise (fun c d => c.1 < d.1) ∧ ∀ c ∈ m, c.2 ≠ Memory.unlisted

/-- Why a step raises (00_scope.md R12). -/
inductive Trap where
  /-- `raise BadAddress`. -/
  | badAddress
  /-- `raise BadInstruction`. -/
  | badInstruction
  /-- `raise RegFault`: the status is the parameter `RegFieldFault`. -/
  | regFault
deriving DecidableEq, Repr

/-- All that a run starts from: the parameters of 00_scope.md R7. -/
structure Launch where
  config : Config
  /-- `Entry`. -/
  entry  : Word
  /-- `InitImage`. -/
  image  : Memory
  /-- `InitRegs`. -/
  regs   : RegFile
  /-- `InitFlags`. -/
  flags  : Flags
  /-- The start of the host's input. -/
  input  : InState
deriving DecidableEq, Repr

end Sys2Proof.Machine
end

