-- ==== Sys2Proof/Machine/Reference.lean ====
section
/-! DEFINITION. The reference values of the launch parameters (00_scope.md R7), and the values this model names where R7 gives none
("set per launch"). -/

namespace Sys2Proof.Machine

/-- The reference configuration. DESIGN CHOICE, unsafe (log 8): the capacity is the largest the spec allows, so that no program's
image shapes the reset state. The other four are the reference values of 00_scope.md R7 (logs 9 to 12). -/
def referenceConfig : Config where
  capacity := 2147483647
  opcodes := OpcodeMap.reference
  regFieldFault := .badAddress
  spSelfMode := .literal
  movsblFieldOrder := .baseHigh

/-- `InitRegs` of the reference configuration: all zero (10_state.md R38). DESIGN CHOICE of the spec, unsafe (log 1). -/
def referenceRegs : RegFile where
  A := 0
  C := 0
  D := 0
  B := 0
  SP := 0
  BP := 0
  SI := 0
  DI := 0

/-- `InitFlags` of the reference configuration: all false (10_state.md R39). DESIGN CHOICE of the spec, unsafe (log 2). -/
def referenceFlags : Flags where
  OF := false
  ZF := false
  SF := false

/-- The launch of the reset state. DESIGN CHOICE, unsafe: entry 0 (log 3), an image with nothing written (log 4), a host whose input
is at its end (log 5). -/
def referenceLaunch : Launch where
  config := referenceConfig
  entry := 0
  image := []
  regs := referenceRegs
  flags := referenceFlags
  input := .eof

end Sys2Proof.Machine
end

