-- ==== Sys2Proof/Machine/State.lean ====
section
/-! DEFINITION. The state of the core (10_state.md), the reasons a step can stop, and the state after reset (10_state.md R38 to R43,
70_reset_and_hazards.md R220). -/

namespace Sys2Proof.Machine

/-- The architectural state (10_state.md) and, in `config`, the configuration of the run. -/
structure State where
  /-- The general registers (R20). -/
  regs   : RegFile
  /-- The condition flags (R25). -/
  flags  : Flags
  /-- The program counter (R28). -/
  pc     : Word
  /-- The program status (R31). -/
  status : Status
  /-- The memory image (R34). -/
  mem    : Memory
  /-- The position of the input channel (R35). -/
  input  : InState
  /-- The output trace, oldest event first (R35). -/
  output : List OutEvent
  /-- The run's configuration (R37), which no step changes (DESIGN CHOICE, safe: log 7). -/
  config : Config
deriving DecidableEq, Repr

/-- Why the machine has no next state. The spec's own faults (BAD_ADDRESS, BAD_INSTRUCTION) are not here: they are next states. -/
inductive Fault where
  /-- The core has stopped: its status is terminal and it takes no further step (10_state.md R32, 40_step.md R100). Raised by `step`
  alone, never by an instruction; it carries the terminal status. Safe (log 13): the hardware takes no step either. -/
  | stopped (status : Status)
deriving DecidableEq, Repr

/-- Why an instruction has no meaning in the model. -/
inductive Refusal where
  /-- The instruction has no meaning yet; raised by the refused arms of `exec`, of which there are none. Safe: nothing is claimed. -/
  | notModelled (mnemonic : String)
deriving DecidableEq, Repr

/-- The state at the start of a run (10_state.md R38 to R43, 70_reset_and_hazards.md R220). -/
def State.launch (l : Launch) : State where
  regs := l.regs
  flags := l.flags
  pc := l.entry
  status := .running
  mem := l.image
  input := l.input
  output := []
  config := l.config

/-- The machine right after reset, with the reference launch parameters. -/
def State.reset : State := State.launch referenceLaunch

end Sys2Proof.Machine
end

