-- ==== Sys2Proof/Machine/Ops.lean ====
section
/-! DEFINITION. The named operations over registers, memory, the pc, the status and the host channels (00_scope.md R11 to R14,
20_memory.md, 46_io.md), and the one operation that takes a fault. -/

namespace Sys2Proof.Machine

/-! ### Registers -/

/-- `x[i]` (00_scope.md R11). -/
def RegFile.get (rf : RegFile) : Reg → Word
  | .A => rf.A
  | .C => rf.C
  | .D => rf.D
  | .B => rf.B
  | .SP => rf.SP
  | .BP => rf.BP
  | .SI => rf.SI
  | .DI => rf.DI

/-- `x[i] <- v` (00_scope.md R11); no register discards a write (10_state.md R22). -/
def RegFile.set (rf : RegFile) (r : Reg) (v : Word) : RegFile :=
  match r with
  | .A => { rf with A := v }
  | .C => { rf with C := v }
  | .D => { rf with D := v }
  | .B => { rf with B := v }
  | .SP => { rf with SP := v }
  | .BP => { rf with BP := v }
  | .SI => { rf with SI := v }
  | .DI => { rf with DI := v }

def State.readReg (s : State) (r : Reg) : Word := s.regs.get r

def State.writeReg (s : State) (r : Reg) (v : Word) : State := { s with regs := s.regs.set r v }

/-! ### Flags, pc and status -/

def State.setFlags (s : State) (f : Flags) : State := { s with flags := f }

/-- Writes ZF alone, as READB and READL do (10_state.md R26). -/
def State.setZF (s : State) (z : Bool) : State := { s with flags := { s.flags with ZF := z } }

def State.setPc (s : State) (a : Word) : State := { s with pc := a }

/-- `pc <- pc + len`, modulo 2^32 (10_state.md R30, 40_step.md R107). -/
def State.advance (s : State) (len : Nat) : State := s.setPc (s.pc + BitVec.ofNat 32 len)

def State.setStatus (s : State) (st : Status) : State := { s with status := st }

/-! ### Memory -/

/-- The byte at an address; an address with no cell reads as `Memory.unlisted`. -/
def Memory.read : Memory → Nat → Byte
  | [], _ => Memory.unlisted
  | (k, b) :: m, a => if a = k then b else Memory.read m a

/-- Writes one byte, keeping the cells in rising order and dropping a cell that would hold what an unlisted address reads as. -/
def Memory.write : Memory → Nat → Byte → Memory
  | [], a, b => if b = Memory.unlisted then [] else [(a, b)]
  | (k, c) :: m, a, b =>
    if a < k then (if b = Memory.unlisted then (k, c) :: m else (a, b) :: (k, c) :: m)
    else if a = k then (if b = Memory.unlisted then m else (a, b) :: m)
    else (k, c) :: Memory.write m a b

/-- Writes consecutive bytes, the first at `a`. -/
def Memory.writeBytes (m : Memory) (a : Nat) : List Byte → Memory
  | [] => m
  | b :: bs => Memory.writeBytes (m.write a b) (a + 1) bs

/-- `M[a]`: the byte of the image at an address. -/
def State.byteAt (s : State) (a : Nat) : Byte := s.mem.read a

def State.setMem (s : State) (m : Memory) : State := { s with mem := m }

/-- `InBounds(a, n)`, the one check on an address, in exact integers (20_memory.md R51). -/
def State.inBounds (s : State) (a : Word) (n : Nat) : Bool :=
  decide (0 ≤ a.toInt ∧ a.toInt + n ≤ s.config.capacity.val)

/-- Raises BadAddress unless the access is admitted. -/
def State.checkBounds (s : State) (a : Word) (n : Nat) : Except Trap Unit :=
  if s.inBounds a n then .ok () else .error .badAddress

/-- `MemRead(a, 1)` (20_memory.md R58). -/
def State.loadByte (s : State) (a : Word) : Except Trap Byte :=
  if s.inBounds a 1 then .ok (s.byteAt a.toNat) else .error .badAddress

/-- `MemRead(a, 4)` (20_memory.md R58). -/
def State.loadWord (s : State) (a : Word) : Except Trap Word :=
  if s.inBounds a 4 then
    .ok (le32 (s.byteAt a.toNat) (s.byteAt (a.toNat + 1)) (s.byteAt (a.toNat + 2)) (s.byteAt (a.toNat + 3)))
  else .error .badAddress

/-- `MemWrite(a, 1, b)` (20_memory.md R59). -/
def State.storeByte (s : State) (a : Word) (b : Byte) : Except Trap State :=
  if s.inBounds a 1 then .ok (s.setMem (s.mem.writeBytes a.toNat [b])) else .error .badAddress

/-- `MemWrite(a, 4, w)`: the whole span is checked before any byte is written (20_memory.md R59). -/
def State.storeWord (s : State) (a : Word) (w : Word) : Except Trap State :=
  if s.inBounds a 4 then .ok (s.setMem (s.mem.writeBytes a.toNat (le32Bytes w))) else .error .badAddress

/-! ### The stack (20_memory.md R69) -/

/-- The address a push writes to: SP − 4 modulo 2^32 (20_memory.md R53). -/
def State.pushAddr (s : State) : Word := s.readReg .SP - 4

/-- Stores a word at SP − 4 and then moves SP there. -/
def State.push (s : State) (v : Word) : Except Trap State := do
  let t ← s.storeWord s.pushAddr v
  return t.writeReg .SP s.pushAddr

/-- Loads the word at SP, and the state with SP moved up by 4. -/
def State.pop (s : State) : Except Trap (Word × State) := do
  let v ← s.loadWord (s.readReg .SP)
  return (v, s.writeReg .SP (s.readReg .SP + 4))

/-! ### The host channels (46_io.md R170, R175) -/

/-- `HostIn.readByte`. -/
def InState.readByte : InState → Option (Byte × InState)
  | .host id past => (Config.hostByte id past).map fun b => (b, .host id (.byte :: past))
  | .endless b w => some (b, .endless b w)
  | .eof => none
  | .byteOnly b next => some (b, next)
  | .longOnly _ _ => none
  | .either b next _ _ => some (b, next)

/-- `HostIn.readLong`. -/
def InState.readLong : InState → Option (Word × InState)
  | .host id past => (Config.hostLong id past).map fun w => (w, .host id (.long :: past))
  | .endless b w => some (w, .endless b w)
  | .eof => none
  | .byteOnly _ _ => none
  | .longOnly w next => some (w, next)
  | .either _ _ w next => some (w, next)

def State.setInput (s : State) (i : InState) : State := { s with input := i }

/-- `HostOut.emitByte` and `HostOut.emitLong`: appends one event to the output trace. -/
def State.emit (s : State) (e : OutEvent) : State := { s with output := s.output ++ [e] }

/-! ### Taking a fault

The core's only exceptions are the terminal statuses. A fault saves nothing and goes nowhere (60_exceptions.md R204, R209), and there
is no return from one (R210): there is no second operation to stand beside this one. -/

/-- The status `RegFault` raises (00_scope.md R7, 30_encoding.md R89). -/
def RegFieldFault.status : RegFieldFault → Status
  | .badAddress => .badAddress
  | .badInstruction => .badInstruction

/-- The status each trap ends in (00_scope.md R12). -/
def Trap.status (c : Config) : Trap → Status
  | .badAddress => .badAddress
  | .badInstruction => .badInstruction
  | .regFault => RegFieldFault.status c.regFieldFault

/-- Taking a fault: the status is written and nothing else (40_step.md R106, 60_exceptions.md R205). -/
def State.raise (s : State) (t : Trap) : State := s.setStatus (t.status s.config)

/-- The commit of an instruction (40_step.md R106): all its writes together, or, when it raised, the status alone. -/
def commit (s : State) (r : Except Trap State) : Host.Outcome State Fault Refusal :=
  match r with
  | .ok t => .next t
  | .error e => .next (s.raise e)

end Sys2Proof.Machine
end

