-- ==== Sys2Proof/Machine/Flags.lean ====
section
/-! DEFINITION. The flag computations of the ALU (43_alu.md R131 to R137) and the conditions of the jumps (44_jumps.md R151 to R157). -/

namespace Sys2Proof.Machine

/-- The exact result does not fit a 32-bit signed integer (43_alu.md R132, R133, R136). -/
def overflows (exact : Int) : Bool := !decide (-2147483648 ≤ exact ∧ exact ≤ 2147483647)

/-- OF as given, ZF and SF from the wrapped result (43_alu.md R131). -/
def resultFlags (ovf : Bool) (res : Word) : Flags where
  OF := ovf
  ZF := decide (res = 0)
  SF := res.msb

/-- The flags of `b + a` (43_alu.md R132). -/
def addFlags (b a : Word) : Flags := resultFlags (overflows (b.toInt + a.toInt)) (b + a)

/-- The flags of `b - a`, for SUBL and CMPL (43_alu.md R133, R137). -/
def subFlags (b a : Word) : Flags := resultFlags (overflows (b.toInt - a.toInt)) (b - a)

/-- The flags of the product (43_alu.md R136). -/
def mulFlags (b a : Word) : Flags := resultFlags (overflows (b.toInt * a.toInt)) (b * a)

/-- The flags of `b AND a`: OF is cleared (43_alu.md R134). -/
def andFlags (b a : Word) : Flags := resultFlags false (b &&& a)

/-- The flags of `b XOR a`: OF is cleared, by the spec's decision D5 (43_alu.md R135). -/
def xorFlags (b a : Word) : Flags := resultFlags false (b ^^^ a)

/-- JLE: `ZF or (SF xor OF)` (44_jumps.md R152). -/
def condLE (f : Flags) : Bool := f.ZF || (f.SF ^^ f.OF)

/-- JL: `(not ZF) and (SF xor OF)` (44_jumps.md R153). -/
def condL (f : Flags) : Bool := !f.ZF && (f.SF ^^ f.OF)

/-- JE: `ZF` (44_jumps.md R154). -/
def condE (f : Flags) : Bool := f.ZF

/-- JNE: `not ZF` (44_jumps.md R155). -/
def condNE (f : Flags) : Bool := !f.ZF

/-- JGE: `not ((not ZF) and (SF xor OF))` (44_jumps.md R156). -/
def condGE (f : Flags) : Bool := !(!f.ZF && (f.SF ^^ f.OF))

/-- JG: `not (ZF or (SF xor OF))` (44_jumps.md R157). -/
def condG (f : Flags) : Bool := !(f.ZF || (f.SF ^^ f.OF))

end Sys2Proof.Machine
end

