-- ==== Sys2Proof/Machine/Operands.lean ====
section
/-! DEFINITION. The operand forms: register fields and their checks (30_encoding.md R87 to R90, 40_step.md R104), the effective
address (20_memory.md R53), and MOVSBL's field order (47_movsbl.md R180). -/

namespace Sys2Proof.Machine

/-- The register a field value names (10_state.md R21, 30_encoding.md R87); 8..15 name none (10_state.md R24). -/
def regOfField (f : RegField) : Option Reg :=
  match f.toNat with
  | 0 => some .A
  | 1 => some .C
  | 2 => some .D
  | 3 => some .B
  | 4 => some .SP
  | 5 => some .BP
  | 6 => some .SI
  | 7 => some .DI
  | _ => none

/-- A field that must name a register: 8..15 raise RegFault (30_encoding.md R89). -/
def needReg (f : RegField) : Except Trap Reg :=
  match regOfField f with
  | some r => .ok r
  | none => .error .regFault

/-- IRMOVL's first field: it must name no register (30_encoding.md R88). -/
def needNoReg (f : RegField) : Except Trap Unit :=
  match regOfField f with
  | some _ => .error .badAddress
  | none => .ok ()

/-- `x[base] + disp`, modulo 2^32 (20_memory.md R53). -/
def State.ea (s : State) (base : Reg) (disp : Word) : Word := s.readReg base + disp

/-- MOVSBL's base and destination, in that order, from the registers of rA and rB (47_movsbl.md R180). -/
def movsblRoles (order : MovsblFieldOrder) (a b : Reg) : Reg × Reg :=
  match order with
  | .baseHigh => (a, b)
  | .baseLow => (b, a)

end Sys2Proof.Machine
end

