-- ==== Sys2Proof/Machine/Alu.lean ====
section
/-! DEFINITION. The ALU instructions (43_alu.md). Operand a is `x[rA]`, operand b is `x[rB]`, the destination is rB (R130). -/

namespace Sys2Proof.Machine

/-- What the ALU instructions share (43_alu.md R130): both operands are read first, then the flags and, where the instruction has a
destination, the result are written. `res` and `flags` take b first, then a; `writes` is false for CMPL. -/
def alu (rA rB : RegField) (res : Word → Word → Word) (flags : Word → Word → Flags) (writes : Bool) (s : State) :
    Except Trap State := do
  let ra ← needReg rA
  let rb ← needReg rB
  let a := s.readReg ra
  let b := s.readReg rb
  let t := s.setFlags (flags b a)
  return (if writes then t.writeReg rb (res b a) else t).advance 2

/-- ADDL: b + a (43_alu.md R132). -/
def execAddl (rA rB : RegField) (s : State) : Host.Outcome State Fault Refusal :=
  commit s (alu rA rB (fun b a => b + a) addFlags true s)

/-- SUBL: b − a (43_alu.md R133). -/
def execSubl (rA rB : RegField) (s : State) : Host.Outcome State Fault Refusal :=
  commit s (alu rA rB (fun b a => b - a) subFlags true s)

/-- ANDL: b AND a (43_alu.md R134). -/
def execAndl (rA rB : RegField) (s : State) : Host.Outcome State Fault Refusal :=
  commit s (alu rA rB (fun b a => b &&& a) andFlags true s)

/-- XORL: b XOR a (43_alu.md R135). -/
def execXorl (rA rB : RegField) (s : State) : Host.Outcome State Fault Refusal :=
  commit s (alu rA rB (fun b a => b ^^^ a) xorFlags true s)

/-- MULL: the low 32 bits of b · a (43_alu.md R136). -/
def execMull (rA rB : RegField) (s : State) : Host.Outcome State Fault Refusal :=
  commit s (alu rA rB (fun b a => b * a) mulFlags true s)

/-- CMPL: the flags of b − a, no destination (43_alu.md R137). -/
def execCmpl (rA rB : RegField) (s : State) : Host.Outcome State Fault Refusal :=
  commit s (alu rA rB (fun b a => b - a) subFlags false s)

end Sys2Proof.Machine
end

