-- ==== Sys2Proof/Machine/Io.lean ====
section
/-! DEFINITION. READB, READL, WRITEB and WRITEL over the host channels (46_io.md). The base is rA; the rB field is not used. The
address is checked before the host is asked (R171, R172), and a failed read writes ZF and no memory. -/

namespace Sys2Proof.Machine

/-- READB (46_io.md R171). -/
def execReadb (rA _rB : RegField) (V : Word) (s : State) : Host.Outcome State Fault Refusal :=
  commit s do
    let base ← needReg rA
    s.checkBounds (s.ea base V) 1
    match s.input.readByte with
    | some (b, input) =>
      let t ← s.storeByte (s.ea base V) b
      return ((t.setInput input).setZF false).advance 6
    | none => return (s.setZF true).advance 6

/-- READL (46_io.md R172). -/
def execReadl (rA _rB : RegField) (V : Word) (s : State) : Host.Outcome State Fault Refusal :=
  commit s do
    let base ← needReg rA
    s.checkBounds (s.ea base V) 4
    match s.input.readLong with
    | some (w, input) =>
      let t ← s.storeWord (s.ea base V) w
      return ((t.setInput input).setZF false).advance 6
    | none => return (s.setZF true).advance 6

/-- WRITEB (46_io.md R173). -/
def execWriteb (rA _rB : RegField) (V : Word) (s : State) : Host.Outcome State Fault Refusal :=
  commit s do
    let base ← needReg rA
    let b ← s.loadByte (s.ea base V)
    return (s.emit (.outByte b)).advance 6

/-- WRITEL (46_io.md R174). -/
def execWritel (rA _rB : RegField) (V : Word) (s : State) : Host.Outcome State Fault Refusal :=
  commit s do
    let base ← needReg rA
    let w ← s.loadWord (s.ea base V)
    return (s.emit (.outLong w)).advance 6

end Sys2Proof.Machine
end

