-- ==== Sys2Proof/Machine/Jumps.lean ====
section
/-! DEFINITION. The jumps (44_jumps.md). The target is absolute and is not checked here (R150). -/

namespace Sys2Proof.Machine

/-- `if c: pc <- dest else pc <- pc + 5` (44_jumps.md R150). -/
def State.jumpIf (s : State) (c : Bool) (dest : Word) : State := if c then s.setPc dest else s.advance 5

/-- JMP (44_jumps.md R151). -/
def execJmp (dest : Word) (s : State) : Host.Outcome State Fault Refusal := commit s (.ok (s.setPc dest))

/-- JLE (44_jumps.md R152). -/
def execJle (dest : Word) (s : State) : Host.Outcome State Fault Refusal := commit s (.ok (s.jumpIf (condLE s.flags) dest))

/-- JL (44_jumps.md R153). -/
def execJl (dest : Word) (s : State) : Host.Outcome State Fault Refusal := commit s (.ok (s.jumpIf (condL s.flags) dest))

/-- JE (44_jumps.md R154). -/
def execJe (dest : Word) (s : State) : Host.Outcome State Fault Refusal := commit s (.ok (s.jumpIf (condE s.flags) dest))

/-- JNE (44_jumps.md R155). -/
def execJne (dest : Word) (s : State) : Host.Outcome State Fault Refusal := commit s (.ok (s.jumpIf (condNE s.flags) dest))

/-- JGE (44_jumps.md R156). -/
def execJge (dest : Word) (s : State) : Host.Outcome State Fault Refusal := commit s (.ok (s.jumpIf (condGE s.flags) dest))

/-- JG (44_jumps.md R157). -/
def execJg (dest : Word) (s : State) : Host.Outcome State Fault Refusal := commit s (.ok (s.jumpIf (condG s.flags) dest))

end Sys2Proof.Machine
end

