-- ==== Sys2Proof/Machine/Moves.lean ====
section
/-! DEFINITION. The moves (42_moves.md). None writes a flag. -/

namespace Sys2Proof.Machine

/-- RRMOVL: `x[rB] <- x[rA]` (42_moves.md R120). -/
def execRrmovl (rA rB : RegField) (s : State) : Host.Outcome State Fault Refusal :=
  commit s do
    let src ← needReg rA
    let dst ← needReg rB
    return (s.writeReg dst (s.readReg src)).advance 2

/-- IRMOVL: `x[rB] <- V`, rA naming no register (42_moves.md R121). -/
def execIrmovl (rA rB : RegField) (V : Word) (s : State) : Host.Outcome State Fault Refusal :=
  commit s do
    needNoReg rA
    let dst ← needReg rB
    return (s.writeReg dst V).advance 6

/-- RMMOVL: stores `x[rA]` at `x[rB] + V` (42_moves.md R122). -/
def execRmmovl (rA rB : RegField) (V : Word) (s : State) : Host.Outcome State Fault Refusal :=
  commit s do
    let src ← needReg rA
    let base ← needReg rB
    let t ← s.storeWord (s.ea base V) (s.readReg src)
    return t.advance 6

/-- MRMOVL: loads `x[rA]` from `x[rB] + V`; the destination is the first operand (42_moves.md R123). -/
def execMrmovl (rA rB : RegField) (V : Word) (s : State) : Host.Outcome State Fault Refusal :=
  commit s do
    let dst ← needReg rA
    let base ← needReg rB
    let w ← s.loadWord (s.ea base V)
    return (s.writeReg dst w).advance 6

end Sys2Proof.Machine
end

