-- ==== Sys2Proof/Machine/Movsbl.lean ====
section
/-! DEFINITION. MOVSBL (47_movsbl.md): the intended semantics, as the spec directs (90_conflicts.md C10). -/

namespace Sys2Proof.Machine

/-- MOVSBL: sign-extends the byte at `x[base] + V` into the destination (47_movsbl.md R180). -/
def execMovsbl (rA rB : RegField) (V : Word) (s : State) : Host.Outcome State Fault Refusal :=
  commit s do
    let ra ← needReg rA
    let rb ← needReg rB
    let (base, dst) := movsblRoles s.config.movsblFieldOrder ra rb
    let b ← s.loadByte (s.ea base V)
    return (s.writeReg dst (sext32 b)).advance 6

end Sys2Proof.Machine
end

