-- ==== Sys2Proof/Machine/NopHalt.lean ====
section
/-! DEFINITION. NOP and HALT (41_nop_halt.md). -/

namespace Sys2Proof.Machine

/-- NOP (41_nop_halt.md R110). -/
def execNop (s : State) : Host.Outcome State Fault Refusal := commit s (.ok (s.advance 1))

/-- HALT: the status becomes HALTED and the pc stays (41_nop_halt.md R111). -/
def execHalt (s : State) : Host.Outcome State Fault Refusal := commit s (.ok (s.setStatus .halted))

end Sys2Proof.Machine
end

