-- ==== Sys2Proof/Machine/Stack.lean ====
section
/-! DEFINITION. CALL, RET, PUSHL and POPL (45_call_stack.md). All use SP; none writes a flag. -/

namespace Sys2Proof.Machine

/-- CALL: pushes the address of the next instruction and jumps (45_call_stack.md R160). -/
def execCall (dest : Word) (s : State) : Host.Outcome State Fault Refusal :=
  commit s do
    let t ← s.push (s.pc + 5)
    return t.setPc dest

/-- RET: pops the pc (45_call_stack.md R161). -/
def execRet (s : State) : Host.Outcome State Fault Refusal :=
  commit s do
    let (target, t) ← s.pop
    return t.setPc target

/-- The word PUSHL stores: for SP itself, as the parameter `SPSelfMode` says (45_call_stack.md R162). -/
def State.pushValue (s : State) (r : Reg) : Word :=
  if r = .SP ∧ s.config.spSelfMode = .literal then s.pushAddr else s.readReg r

/-- PUSHL; its rB field is not used (45_call_stack.md R162). -/
def execPushl (rA _rB : RegField) (s : State) : Host.Outcome State Fault Refusal :=
  commit s do
    let r ← needReg rA
    let t ← s.push (s.pushValue r)
    return t.advance 2

/-- The register file after POPL into `r` of the word `v`, from the state with SP already moved up: for SP itself, as the parameter
`SPSelfMode` says (45_call_stack.md R163). -/
def State.popInto (s : State) (r : Reg) (v : Word) : State :=
  if r = .SP ∧ s.config.spSelfMode = .literal then s.writeReg .SP (v + 4) else s.writeReg r v

/-- POPL; its rB field is not used (45_call_stack.md R163). -/
def execPopl (rA _rB : RegField) (s : State) : Host.Outcome State Fault Refusal :=
  commit s do
    let r ← needReg rA
    let (v, t) ← s.pop
    return (t.popInto r v).advance 2

end Sys2Proof.Machine
end

