-- ==== Sys2Proof/Machine/Dispatch.lean ====
section
/-! DEFINITION. The dispatch: one arm per instruction, each one call of its meaning (40_step.md R105). -/

namespace Sys2Proof.Machine

def exec (i : Instr) (s : State) : Host.Outcome State Fault Refusal :=
  match i with
  | .nop => Sys2Proof.Machine.execNop s
  | .halt => Sys2Proof.Machine.execHalt s
  | .rrmovl rA rB => Sys2Proof.Machine.execRrmovl rA rB s
  | .irmovl rA rB V => Sys2Proof.Machine.execIrmovl rA rB V s
  | .rmmovl rA rB V => Sys2Proof.Machine.execRmmovl rA rB V s
  | .mrmovl rA rB V => Sys2Proof.Machine.execMrmovl rA rB V s
  | .addl rA rB => Sys2Proof.Machine.execAddl rA rB s
  | .subl rA rB => Sys2Proof.Machine.execSubl rA rB s
  | .andl rA rB => Sys2Proof.Machine.execAndl rA rB s
  | .xorl rA rB => Sys2Proof.Machine.execXorl rA rB s
  | .mull rA rB => Sys2Proof.Machine.execMull rA rB s
  | .cmpl rA rB => Sys2Proof.Machine.execCmpl rA rB s
  | .jmp dest => Sys2Proof.Machine.execJmp dest s
  | .jle dest => Sys2Proof.Machine.execJle dest s
  | .jl dest => Sys2Proof.Machine.execJl dest s
  | .je dest => Sys2Proof.Machine.execJe dest s
  | .jne dest => Sys2Proof.Machine.execJne dest s
  | .jge dest => Sys2Proof.Machine.execJge dest s
  | .jg dest => Sys2Proof.Machine.execJg dest s
  | .call dest => Sys2Proof.Machine.execCall dest s
  | .ret => Sys2Proof.Machine.execRet s
  | .pushl rA rB => Sys2Proof.Machine.execPushl rA rB s
  | .popl rA rB => Sys2Proof.Machine.execPopl rA rB s
  | .readb rA rB V => Sys2Proof.Machine.execReadb rA rB V s
  | .readl rA rB V => Sys2Proof.Machine.execReadl rA rB V s
  | .writeb rA rB V => Sys2Proof.Machine.execWriteb rA rB V s
  | .writel rA rB V => Sys2Proof.Machine.execWritel rA rB V s
  | .movsbl rA rB V => Sys2Proof.Machine.execMovsbl rA rB V s

end Sys2Proof.Machine
end

