-- ==== Sys2Proof/Machine/Fetch.lean ====
section
/-! DEFINITION. The fetch unit and the decoder's reads (40_step.md R101 to R103), and the placing of an instruction's bytes where the
next fetch reads them. -/

namespace Sys2Proof.Machine

/-- The instruction at the pc, or the fault its fetch raises, checked in the order of 40_step.md R101, R102, R103. -/
def State.fetch (s : State) : Except Trap Instr :=
  if s.inBounds s.pc 1 then
    match s.config.opcodes.opcodeOf (s.byteAt s.pc.toNat) with
    | none => .error .badInstruction
    | some op =>
      if s.inBounds s.pc op.length then .ok (assemble op fun k => s.byteAt (s.pc.toNat + k))
      else .error .badAddress
  else .error .badAddress

/-- The bytes of an instruction stored from the pc on, as far as they lie in the memory image (log 15). -/
def State.placeAtPc (s : State) (bytes : List Byte) : State :=
  if s.inBounds s.pc 0 then
    s.setMem (s.mem.writeBytes s.pc.toNat (bytes.take (s.config.capacity.val - s.pc.toNat)))
  else s

end Sys2Proof.Machine
end

