-- ==== Sys2Proof/Machine/Step.lean ====
section
/-! DEFINITION. One step of the core (40_step.md R100 to R109). -/

namespace Sys2Proof.Machine

/-- One step (40_step.md R109). A core whose status is terminal takes none (R100; DESIGN CHOICE, safe: log 13). -/
def step (s : State) : Host.Outcome State Fault Refusal :=
  match s.status with
  | .running =>
    match s.fetch with
    | .ok i => exec i s
    | .error e => .next (s.raise e)
  | st => .fault (.stopped st)

/-- `s` with the instruction whose bits are `w` stored at the pc, where the next step fetches it, and the core running, without which
no step fetches (log 15). -/
def State.withFetchWord (s : State) (nbits w : Nat) : State := (s.placeAtPc (tableBytes nbits w)).setStatus .running

end Sys2Proof.Machine
end

