-- ==== Sys2Proof/Machine/Loader.lean ====
section
/-! DEFINITION. The loader's contract (70_reset_and_hazards.md R221 to R232): from a program text, split into directives, to the launch
triple (Capacity, InitImage, Entry), or a load error and no run. The loader is outside the block (00_scope.md R4): no step uses this
file. Splitting a text into directives is not modelled (log 16). -/

namespace Sys2Proof.Machine

/-- A directive of the program text with its arguments as they stand there: the numeric ones as characters, the text of `.string` as
its bytes without the quotes. -/
inductive Directive where
  /-- `.size <hex>` (R222). -/
  | size (capacity : List Char)
  /-- `.text <hex-address> <hex-byte-string>` (R223). -/
  | text (addr bytes : List Char)
  /-- `.byte <hex-address> <hex-value>` (R224). -/
  | byte (addr value : List Char)
  /-- `.long <hex-address> <decimal-value>` (R225). -/
  | long (addr value : List Char)
  /-- `.string <hex-address> "<text>"` (R226). -/
  | string (addr : List Char) (text : List Byte)
  /-- `.bss` (R227). -/
  | bss
  /-- Any other token that begins with `.` (R228). -/
  | unrecognized (token : List Char)
  /-- A token that is neither a directive nor an argument of one, or the token of a directive with a missing argument (R232). -/
  | malformed (token : List Char)
deriving DecidableEq, Repr

/-- Why a load fails, with the offending token (R221). A failed load starts no run. A missing directive has no token to report. -/
inductive LoadError where
  /-- There is no `.size` (R222). -/
  | noSize
  /-- A second `.size`: its argument (R222). -/
  | secondSize (token : List Char)
  /-- There is no `.text` (R223). -/
  | noText
  /-- A second `.text`: its address argument (R223). -/
  | secondText (token : List Char)
  /-- An unrecognized directive (R228). -/
  | unrecognized (token : List Char)
  /-- A stray token, or a directive with a missing argument (R232). -/
  | malformed (token : List Char)
  /-- A hexadecimal argument with a character that is no hex digit, none at all, or more than 8 (R231, R232). -/
  | badHex (token : List Char)
  /-- A `.text` byte string of odd length (R232). -/
  | oddText (token : List Char)
  /-- A `.byte` value above 0xFF: the spec gives it no meaning; refused (log 16). -/
  | byteRange (token : List Char)
  /-- A decimal argument that is not digits after an optional minus sign (R225; refused by log 16). -/
  | badDecimal (token : List Char)
  /-- A `.long` value outside [−2^31, 2^31 − 1] (R232). -/
  | longRange (token : List Char)
  /-- A capacity above 2^31 − 1 (10_state.md R34): not modelled by the spec (D7); refused (log 16). -/
  | capacityRange (token : List Char)
  /-- A write outside [0, Capacity): the address argument of its directive (R230). -/
  | outOfRange (token : List Char)
deriving DecidableEq, Repr

/-- The offending token an error reports (R221). -/
def LoadError.token : LoadError → Option (List Char)
  | .noSize | .noText => none
  | .secondSize t | .secondText t | .unrecognized t | .malformed t | .badHex t | .oddText t | .byteRange t | .badDecimal t
  | .longRange t | .capacityRange t | .outOfRange t => some t

/-- The tokens of a directive that a load error can be about: its numeric arguments, or the token that is none of the directives. -/
def Directive.tokens : Directive → List (List Char)
  | .size c => [c]
  | .text a b => [a, b]
  | .byte a v => [a, v]
  | .long a v => [a, v]
  | .string a _ => [a]
  | .bss => []
  | .unrecognized t => [t]
  | .malformed t => [t]

/-- A hex digit: 0–9, a–f, A–F (70_reset_and_hazards.md R231, 90_conflicts.md C5). -/
def hexDigit (c : Char) : Option Nat :=
  let n := c.toNat
  if 48 ≤ n ∧ n ≤ 57 then some (n - 48)
  else if 97 ≤ n ∧ n ≤ 102 then some (n - 87)
  else if 65 ≤ n ∧ n ≤ 70 then some (n - 55)
  else none

/-- A decimal digit (R225). -/
def decDigit (c : Char) : Option Nat :=
  let n := c.toNat
  if 48 ≤ n ∧ n ≤ 57 then some (n - 48) else none

/-- The value of digits in a base, after those already read; none if a character is no digit. -/
def digitsFrom (base : Nat) (digit : Char → Option Nat) (acc : Nat) : List Char → Option Nat
  | [] => some acc
  | c :: cs => (digit c).bind fun d => digitsFrom base digit (base * acc + d) cs

/-- A hexadecimal argument of 1 to 8 digits, as the unsigned value of its word (R231, R232). -/
def hexValue (cs : List Char) : Except LoadError Nat :=
  if 1 ≤ cs.length ∧ cs.length ≤ 8 then
    match digitsFrom 16 hexDigit 0 cs with
    | some n => .ok n
    | none => .error (.badHex cs)
  else .error (.badHex cs)

/-- The magnitude of a decimal argument: one digit or more. -/
def decMagnitude (cs : List Char) : Option Nat := if cs = [] then none else digitsFrom 10 decDigit 0 cs

/-- A decimal argument in the range of a signed word, a minus sign before it if it is negative (R225, R232). -/
def decValue (cs : List Char) : Except LoadError Int :=
  let value : Option Int :=
    match cs with
    | '-' :: ds => (decMagnitude ds).map fun n => -(n : Int)
    | _ => (decMagnitude cs).map fun n => (n : Int)
  match value with
  | none => .error (.badDecimal cs)
  | some v => if -2147483648 ≤ v ∧ v ≤ 2147483647 then .ok v else .error (.longRange cs)

/-- The bytes of hex digits taken two at a time, the first the high nibble (R223). -/
def hexPairs : List Char → Option (List Byte)
  | [] => some []
  | [_] => none
  | hi :: lo :: cs =>
    match hexDigit hi, hexDigit lo, hexPairs cs with
    | some h, some l, some bs => some (BitVec.ofNat 8 (16 * h + l) :: bs)
    | _, _, _ => none

/-- The byte string of `.text` (R223, R232). -/
def hexBytes (cs : List Char) : Except LoadError (List Byte) :=
  if cs.length % 2 = 1 then .error (.oddText cs)
  else
    match hexPairs cs with
    | some bs => .ok bs
    | none => .error (.badHex cs)

/-- The bytes a directive writes and the address of the first. -/
def Directive.writes : Directive → Except LoadError (Nat × List Byte)
  | .size _ => .ok (0, [])
  | .text addr bytes => do
    let a ← hexValue addr
    let bs ← hexBytes bytes
    return (a, bs)
  | .byte addr value => do
    let a ← hexValue addr
    let v ← hexValue value
    if v ≤ 255 then return (a, [BitVec.ofNat 8 v]) else .error (.byteRange value)
  | .long addr value => do
    let a ← hexValue addr
    let v ← decValue value
    return (a, le32Bytes (BitVec.ofInt 32 v))
  | .string addr chars => do
    let a ← hexValue addr
    return (a, chars)
  | .bss => .ok (0, [])
  | .unrecognized tok => .error (.unrecognized tok)
  | .malformed tok => .error (.malformed tok)

/-- The address argument of a directive that writes. -/
def Directive.addrToken : Directive → List Char
  | .text a _ | .byte a _ | .long a _ | .string a _ => a
  | .size _ | .bss | .unrecognized _ | .malformed _ => []

/-- The directives' writes in text order, a later one winning (R229), each inside [0, Capacity) (R230). -/
def loadImage (capacity : Nat) : List Directive → Memory → Except LoadError Memory
  | [], m => .ok m
  | d :: ds, m => do
    let (a, bs) ← d.writes
    if bs = [] ∨ a + bs.length ≤ capacity then loadImage capacity ds (m.writeBytes a bs) else .error (.outOfRange d.addrToken)

/-- The arguments of the `.size` directives, in order. -/
def sizeArgs : List Directive → List (List Char)
  | [] => []
  | .size c :: ds => c :: sizeArgs ds
  | _ :: ds => sizeArgs ds

/-- The address arguments of the `.text` directives, in order. -/
def textArgs : List Directive → List (List Char)
  | [] => []
  | .text a _ :: ds => a :: textArgs ds
  | _ :: ds => textArgs ds

/-- The capacity: the argument of the one `.size` (R222). -/
def loadCapacity (ds : List Directive) : Except LoadError Capacity :=
  match sizeArgs ds with
  | [c] => do
    let n ← hexValue c
    if h : n < 2147483648 then return ⟨n, h⟩ else .error (.capacityRange c)
  | [] => .error .noSize
  | _ :: c :: _ => .error (.secondSize c)

/-- The entry point: the address of the one `.text` (R223). -/
def loadEntry (ds : List Directive) : Except LoadError Word :=
  match textArgs ds with
  | [a] => do
    let n ← hexValue a
    return BitVec.ofNat 32 n
  | [] => .error .noText
  | _ :: a :: _ => .error (.secondText a)

/-- What the loader hands the core (R221). -/
structure Loaded where
  capacity : Capacity
  image    : Memory
  entry    : Word
deriving DecidableEq, Repr

/-- The loader: a launch triple or an error (R221). -/
def load (ds : List Directive) : Except LoadError Loaded := do
  let capacity ← loadCapacity ds
  let entry ← loadEntry ds
  let image ← loadImage capacity.val ds []
  return { capacity, image, entry }

/-- The launch of a loaded program, every other parameter as in `l`. -/
def Launch.withLoaded (l : Launch) (p : Loaded) : Launch :=
  { l with config := { l.config with capacity := p.capacity }, entry := p.entry, image := p.image }

end Sys2Proof.Machine
end

