-- ==== Sys2Proof/Safety.lean ====
section
/-! DEFINITION. What a run is, what a safe run is, the invariant every step keeps, and the words in which the statements say what a
step leaves alone. -/

namespace Sys2Proof.Machine

/-- A terminal status (10_state.md R31): one of HALTED, BAD_ADDRESS, BAD_INSTRUCTION. -/
def Status.terminal : Status → Bool
  | .running => false
  | .halted | .badAddress | .badInstruction => true

/-- A fault status: a terminal one other than HALTED (60_exceptions.md R200, R203). -/
def Status.faulted : Status → Bool
  | .running | .halted => false
  | .badAddress | .badInstruction => true

/-- One step leads from `s` to `t`. -/
def Steps (s t : State) : Prop := step s = .next t

/-- `s` leads to `t` in some number of steps. -/
inductive Reaches : State → State → Prop where
  | refl (s : State) : Reaches s s
  | tail {s t u : State} : Reaches s t → Steps t u → Reaches s u

/-- A run from `s` that ends in `t` (60_exceptions.md R218). -/
def EndsIn (s t : State) : Prop := Reaches s t ∧ t.status.terminal = true

/-- The core cannot fetch at its pc: the opcode byte is outside memory, or the opcode is legal and the instruction runs past the end
(40_step.md R101, R103). -/
def FetchOutside (s : State) : Prop :=
  s.inBounds s.pc 1 = false ∨
    ∃ op, s.config.opcodes.opcodeOf (s.byteAt s.pc.toNat) = some op ∧ s.inBounds s.pc op.length = false

/-- A safe run: no state it reaches has faulted. -/
def SafeFrom (s : State) : Prop := ∀ t, Reaches s t → t.status.faulted = false

/-- The invariant: the memory image is in canonical form, it has no cell outside [0, Capacity) (10_state.md R34), and no two opcodes
share a byte (30_encoding.md R81). -/
abbrev State.Inv (s : State) : Prop :=
  s.mem.wf ∧ (∀ c ∈ s.mem, c.1 < s.config.capacity.val) ∧ s.config.opcodes.wf

/-- A launch whose image is one: canonical, inside [0, Capacity), and with a legal opcode map. -/
abbrev Launch.wf (l : Launch) : Prop :=
  l.image.wf ∧ (∀ c ∈ l.image, c.1 < l.config.capacity.val) ∧ l.config.opcodes.wf

/-! ### The host's input -/

/-- The positions of the input channel that lie ahead of one, over any number of successful reads (46_io.md R170). -/
inductive InState.Ahead (i : InState) : InState → Prop where
  | here : InState.Ahead i i
  | byte {j k : InState} (b : Byte) : InState.Ahead i j → j.readByte = some (b, k) → InState.Ahead i k
  | long {j k : InState} (w : Word) : InState.Ahead i j → j.readLong = some (w, k) → InState.Ahead i k

/-- The host answers every read, however many there are. -/
def InState.Unending (i : InState) : Prop := ∀ j, InState.Ahead i j → j.readByte ≠ none ∧ j.readLong ≠ none

/-! ### Field faults -/

/-- What the field checks of 40_step.md R104 raise, if anything: IRMOVL's own check comes first (30_encoding.md R88), then every field
that must name a register (R89). -/
def fieldTrap (i : Instr) : Option Trap :=
  if i.wellFormed then none
  else
    match i with
    | .irmovl rA _ _ => some (if namesRegister rA then .badAddress else .regFault)
    | _ => some .regFault

/-! ### What an instruction may write -/

/-- The bytes an instruction stores to, as an address and a width (20_memory.md R60); none for an instruction that stores nothing. -/
def storeSpan (i : Instr) (s : State) : Option (Word × Nat) :=
  match i with
  | .rmmovl _ rB V => (regOfField rB).map fun base => (s.ea base V, 4)
  | .readb rA _ V => (regOfField rA).map fun base => (s.ea base V, 1)
  | .readl rA _ V => (regOfField rA).map fun base => (s.ea base V, 4)
  | .pushl _ _ | .call _ => some (s.pushAddr, 4)
  | .nop | .halt | .rrmovl _ _ | .irmovl _ _ _ => none
  | .addl _ _ | .subl _ _ | .andl _ _ | .xorl _ _ | .mull _ _ | .cmpl _ _ => none
  | .jmp _ | .jle _ | .jl _ | .je _ | .jne _ | .jge _ | .jg _ => none
  | .mrmovl _ _ _ | .ret | .popl _ _ | .writeb _ _ _ | .writel _ _ _ | .movsbl _ _ _ => none

/-- The data access of an instruction, load or store, as an address and a width (20_memory.md R60); none for an instruction that
reaches no data. -/
def accessSpan (i : Instr) (s : State) : Option (Word × Nat) :=
  match i with
  | .rmmovl _ rB V | .mrmovl _ rB V => (regOfField rB).map fun base => (s.ea base V, 4)
  | .readb rA _ V | .writeb rA _ V => (regOfField rA).map fun base => (s.ea base V, 1)
  | .readl rA _ V | .writel rA _ V => (regOfField rA).map fun base => (s.ea base V, 4)
  | .pushl _ _ | .call _ => some (s.pushAddr, 4)
  | .popl _ _ | .ret => some (s.readReg .SP, 4)
  | .movsbl rA rB V =>
    match s.config.movsblFieldOrder with
    | .baseHigh => (regOfField rA).map fun base => (s.ea base V, 1)
    | .baseLow => (regOfField rB).map fun base => (s.ea base V, 1)
  | .nop | .halt | .rrmovl _ _ | .irmovl _ _ _ => none
  | .addl _ _ | .subl _ _ | .andl _ _ | .xorl _ _ | .mull _ _ | .cmpl _ _ => none
  | .jmp _ | .jle _ | .jl _ | .je _ | .jne _ | .jge _ | .jg _ => none

/-- The registers an instruction may write: its destination, and SP for the stack instructions (10_state.md R23, 30_encoding.md R86). -/
def destRegs (i : Instr) (s : State) : List Reg :=
  match i with
  | .rrmovl _ rB | .irmovl _ rB _ => (regOfField rB).toList
  | .addl _ rB | .subl _ rB | .andl _ rB | .xorl _ rB | .mull _ rB => (regOfField rB).toList
  | .mrmovl rA _ _ => (regOfField rA).toList
  | .popl rA _ => .SP :: (regOfField rA).toList
  | .pushl _ _ | .call _ | .ret => [.SP]
  | .movsbl rA rB _ =>
    match s.config.movsblFieldOrder with
    | .baseHigh => (regOfField rB).toList
    | .baseLow => (regOfField rA).toList
  | .nop | .halt | .rmmovl _ _ _ | .cmpl _ _ => []
  | .jmp _ | .jle _ | .jl _ | .je _ | .jne _ | .jge _ | .jg _ => []
  | .readb _ _ _ | .readl _ _ _ | .writeb _ _ _ | .writel _ _ _ => []

/-! ### What a step leaves alone -/

/-- Every register outside `rs` reads as before. -/
def RegsKept (s t : State) (rs : List Reg) : Prop := ∀ r, r ∉ rs → t.readReg r = s.readReg r

/-- Every byte outside the `n` bytes from `lo` on reads as before; with `n = 0`, every byte of memory. -/
def MemKept (s t : State) (lo n : Nat) : Prop := ∀ a, a < lo ∨ lo + n ≤ a → t.byteAt a = s.byteAt a

/-- The host channels are where they were. -/
def ChannelsKept (s t : State) : Prop := t.input = s.input ∧ t.output = s.output

/-- The status and the configuration are as they were. -/
def ControlKept (s t : State) : Prop := t.status = s.status ∧ t.config = s.config

/-- The four bytes from address `a` on hold the word `w`, least significant byte first (20_memory.md R55). -/
def HoldsWord (t : State) (a : Nat) (w : Word) : Prop :=
  ∀ k, k < 4 → t.byteAt (a + k) = w.extractLsb' (8 * k) 8

/-- What an ALU instruction does (43_alu.md R130 to R137): it completes, the registers `ws` hold the result `res` and no other register
changes, OF says `ovf`, ZF and SF are those of the result, the pc moves on by 2 and nothing else changes. -/
def AluEffect (i : Instr) (s : State) (ws : List Reg) (res : Word) (ovf : Prop) : Prop :=
  ∃ t, exec i s = .next t ∧ (∀ r ∈ ws, t.readReg r = res) ∧ RegsKept s t ws ∧
    (t.flags.OF = true ↔ ovf) ∧ (t.flags.ZF = true ↔ res = 0) ∧ (t.flags.SF = true ↔ res.toInt < 0) ∧
    t.pc = s.pc + 2 ∧ MemKept s t 0 0 ∧ ChannelsKept s t ∧ ControlKept s t

end Sys2Proof.Machine
end

