-- ==== Sys2Proof/Certificates/Slice0/Obligations.lean ====
section
/-! DEFINITION. The statements for the provers. Each docstring names the rule of spec/ it formalises, and the log entry or decision where
a clause rests on one. -/

open Sys2Proof Sys2Proof.Machine

/-! ### Encoding -/

/-- 30_encoding.md R80 to R86: the decoder gives back every instruction the encoder writes, under every legal opcode map, with every
field at every value its format can hold, the unused ones too. -/
def Obligations.DecodeAfterEncode : Prop :=
  ∀ m : OpcodeMap, m.wf → ∀ (i : Instr) (rest : List Byte), decode m (encode m i ++ rest) = .ok (i, rest)

/-- 30_encoding.md R80 to R86: whatever bytes the decoder accepts, the encoder writes back, so no bit of them is dropped. -/
def Obligations.EncodeAfterDecode : Prop :=
  ∀ (m : OpcodeMap) (bytes rest : List Byte) (i : Instr), decode m bytes = .ok (i, rest) → encode m i ++ rest = bytes

/-- 30_encoding.md R91, 40_step.md R102, R103: when the decoder refuses and why. A byte that is no opcode's is refused whatever follows
it; a legal opcode is refused only when its bytes run out. -/
def Obligations.DecoderRefusals : Prop :=
  ∀ m : OpcodeMap, m.wf → ∀ bytes : List Byte,
    (decode m bytes = .error .noOpcodeByte ↔ bytes = []) ∧
    (∀ b, decode m bytes = .error (.illegalOpcode b) ↔ bytes.head? = some b ∧ ∀ op, m.byteOf op ≠ b) ∧
    (∀ op, decode m bytes = .error (.truncated op) ↔ bytes.head? = some (m.byteOf op) ∧ bytes.length < op.length)

/-- 95_test_vectors.md, words written out byte by byte under the reference opcode map (log 9: most of its bytes are PRESUMED by the
spec): one instruction of every family, numbered as spec/opcode_table.json numbers bits, and one illegal byte. -/
def Obligations.TableWordsDecode : Prop :=
  decodeTableWord 8 0x10 = some .halt ∧
  decodeTableWord 16 0x0320 = some (.rrmovl 0 3) ∧
  decodeTableWord 48 0xADBEEF8530 = some (.irmovl 8 5 0xADBEEF) ∧
  decodeTableWord 48 0x040340 = some (.rmmovl 0 3 4) ∧
  decodeTableWord 16 0x1261 = some (.subl 1 2) ∧
  decodeTableWord 40 0x4072 = some (.jl 0x40) ∧
  decodeTableWord 40 0x4080 = some (.call 0x40) ∧
  decodeTableWord 16 0x0FA0 = some (.pushl 0 15) ∧
  decodeTableWord 48 0x400FC1 = some (.readl 0 15 0x40) ∧
  decodeTableWord 48 0x4472E0 = some (.movsbl 7 2 0x44) ∧
  decodeTableWord 8 0xF0 = none

/-- 30_encoding.md R87 with the index order of 10_state.md R21 (decision D2): which register each field value names. -/
def Obligations.FieldsNameRegisters : Prop :=
  (List.range 8).map (fun k => regOfField (BitVec.ofNat 4 k)) =
      [some .A, some .C, some .D, some .B, some .SP, some .BP, some .SI, some .DI] ∧
    ∀ f : RegField, 8 ≤ f.toNat → regOfField f = none

/-! ### Memory -/

/-- 20_memory.md R58: MemRead of one and of four bytes: the bound of R51 in exact integers decides between BadAddress and the bytes at
the address, the lowest one least significant. -/
def Obligations.LoadsReadTheImage : Prop :=
  ∀ (s : State) (a : Word),
    (¬(0 ≤ a.toInt ∧ a.toInt + 1 ≤ s.config.capacity.val) → s.loadByte a = .error .badAddress) ∧
    (0 ≤ a.toInt ∧ a.toInt + 1 ≤ s.config.capacity.val → s.loadByte a = .ok (s.byteAt a.toNat)) ∧
    (¬(0 ≤ a.toInt ∧ a.toInt + 4 ≤ s.config.capacity.val) → s.loadWord a = .error .badAddress) ∧
    (0 ≤ a.toInt ∧ a.toInt + 4 ≤ s.config.capacity.val →
      ∃ w, s.loadWord a = .ok w ∧ ∀ k, k < 4 → s.byteAt (a.toNat + k) = w.extractLsb' (8 * k) 8)

/-- 20_memory.md R59: MemWrite of one and of four bytes: outside the bound it raises, so no byte is written; inside it the addressed
bytes hold the value, least significant first, every other byte is as before, and the image stays canonical. -/
def Obligations.StoresWriteTheImage : Prop :=
  ∀ (s : State), s.mem.wf → ∀ (a : Word) (b : Byte) (w : Word),
    (¬(0 ≤ a.toInt ∧ a.toInt + 1 ≤ s.config.capacity.val) → s.storeByte a b = .error .badAddress) ∧
    (0 ≤ a.toInt ∧ a.toInt + 1 ≤ s.config.capacity.val → ∃ m, s.storeByte a b = .ok (s.setMem m) ∧ m.wf ∧
      m.read a.toNat = b ∧ MemKept s (s.setMem m) a.toNat 1) ∧
    (¬(0 ≤ a.toInt ∧ a.toInt + 4 ≤ s.config.capacity.val) → s.storeWord a w = .error .badAddress) ∧
    (0 ≤ a.toInt ∧ a.toInt + 4 ≤ s.config.capacity.val → ∃ m, s.storeWord a w = .ok (s.setMem m) ∧ m.wf ∧
      HoldsWord (s.setMem m) a.toNat w ∧ MemKept s (s.setMem m) a.toNat 4)

/-- 20_memory.md R57: after a 4-byte store, a 4-byte load of the address gives the word back, and a 1-byte load at `a + k` gives its bits
8k+7 : 8k. -/
def Obligations.MixedWidths : Prop :=
  ∀ (s t : State) (a w : Word), s.mem.wf → s.storeWord a w = .ok t →
    t.loadWord a = .ok w ∧ ∀ k, k < 4 → t.loadByte (a + BitVec.ofNat 32 k) = .ok (w.extractLsb' (8 * k) 8)

/-! ### Launch, reset, invariants -/

/-- 10_state.md R38 to R43: the state a run starts from, for every launch; with a legal launch it meets the invariant. -/
def Obligations.LaunchState : Prop :=
  ∀ l : Launch, (State.launch l).status = .running ∧ (State.launch l).pc = l.entry ∧
    (∀ r, (State.launch l).readReg r = l.regs.get r) ∧ (State.launch l).flags = l.flags ∧
    (∀ a, (State.launch l).byteAt a = l.image.read a) ∧ (State.launch l).input = l.input ∧ (State.launch l).output = [] ∧
    (State.launch l).config = l.config ∧ (l.wf → (State.launch l).Inv)

/-- The reset state. RUNNING and the empty trace are 10_state.md R41, R43; the registers and flags are the spec's reference values
(decision D13, logs 1 and 2); the pc, the image with nothing written, so that every byte is zero, the input and the capacity are the
model's choices (logs 3, 4, 5 and 8); the other parameters have the spec's reference values (logs 9 to 12). -/
def Obligations.ResetState : Prop :=
  State.reset.status = .running ∧ State.reset.output = [] ∧ (∀ a, State.reset.byteAt a = 0) ∧
    (∀ r, State.reset.readReg r = 0) ∧ State.reset.flags = { OF := false, ZF := false, SF := false } ∧
    State.reset.pc = 0 ∧ State.reset.config.capacity.val = 2147483647 ∧ State.reset.input = .eof ∧
    State.reset.config.opcodes = OpcodeMap.reference ∧ State.reset.config.regFieldFault = .badAddress ∧
    State.reset.config.spSelfMode = .literal ∧ State.reset.config.movsblFieldOrder = .baseHigh

/-- The invariant holds in the reset state. -/
def Obligations.ResetMeetsInvariant : Prop := State.reset.Inv

/-- 10_state.md R34, 30_encoding.md R81: every step keeps the invariant: the image canonical and inside [0, Capacity), the opcode map
legal. -/
def Obligations.StepKeepsInvariant : Prop := ∀ s t : State, s.Inv → step s = .next t → t.Inv

/-- 10_state.md R34, R37: no step changes the configuration; the memory "is fixed at load time and never resized". -/
def Obligations.StepKeepsConfig : Prop := ∀ s t : State, step s = .next t → t.config = s.config

/-- 70_reset_and_hazards.md R221, R229, R230 (decision D22, log 16): what a successful load hands the core. The launch it gives is legal,
the entry is the address of the `.text` directive, a byte no directive writes is zero, and a byte is what the last directive that
writes it says. -/
def Obligations.LoadedLaunch : Prop :=
  ∀ (l : Launch) (ds : List Directive) (p : Loaded), l.config.opcodes.wf → load ds = .ok p →
    (State.launch (l.withLoaded p)).Inv ∧
    (∃ addr bytes, Directive.text addr bytes ∈ ds ∧ hexValue addr = .ok p.entry.toNat) ∧
    (∃ hex, Directive.size hex ∈ ds ∧ hexValue hex = .ok p.capacity.val) ∧
    (∀ a, (∀ d ∈ ds, ∀ start bs, d.writes = .ok (start, bs) → ¬(start ≤ a ∧ a < start + bs.length)) →
      (State.launch (l.withLoaded p)).byteAt a = 0) ∧
    (∀ before d after start bs, ds = before ++ d :: after → d.writes = .ok (start, bs) →
      ∀ k, k < bs.length →
        (∀ e ∈ after, ∀ start' bs', e.writes = .ok (start', bs') → ¬(start' ≤ start + k ∧ start + k < start' + bs'.length)) →
        (State.launch (l.withLoaded p)).byteAt (start + k) = bs.getD k 0)

/-- 70_reset_and_hazards.md R221: a load error is reported with the offending token, a token of one of the directives; a missing `.size`
or `.text` (R222, R223) has none. Which token is the offending one is the model's choice (log 16). -/
def Obligations.LoadErrorsReportTheirToken : Prop :=
  ∀ (ds : List Directive) (e : LoadError), load ds = .error e →
    (e = .noSize ∧ ∀ c, Directive.size c ∉ ds) ∨ (e = .noText ∧ ∀ a b, Directive.text a b ∉ ds) ∨
    ∃ d ∈ ds, ∃ tok ∈ d.tokens, e.token = some tok

/-! ### The step -/

/-- 40_step.md R100: a step is taken exactly while the status is RUNNING; a core with a terminal status has no next state, and the
model's answer names the status (log 13, the model's choice). -/
def Obligations.StepsWhileRunning : Prop :=
  ∀ s : State, ((∃ t, step s = .next t) ↔ s.status = .running) ∧
    (s.status.terminal = true → step s = .fault (.stopped s.status))

/-- 10_state.md R32: once the status is terminal the core takes no further step, so neither the status nor anything else changes again;
and BAD_ADDRESS and BAD_INSTRUCTION can be told apart from HALTED. -/
def Obligations.TerminalIsForever : Prop :=
  (∀ s : State, s.status.terminal = true → (∀ t, step s ≠ .next t) ∧ ∀ t, Reaches s t → t = s) ∧
    (∀ st : Status, st.terminal = true ↔ st ≠ .running) ∧ (∀ st : Status, st.faulted = true ↔ st.terminal = true ∧ st ≠ .halted)

/-- 40_step.md R101 to R109: when the bytes from the pc on lie in memory and decode to an instruction, the step runs it. The pc moves
only as the instruction's own rule says; nothing is added around it. -/
def Obligations.StepRunsDecoded : Prop :=
  ∀ (s : State) (n : Nat) (i : Instr) (rest : List Byte), s.status = .running → s.inBounds s.pc n = true →
    decode s.config.opcodes ((List.range n).map fun k => s.byteAt (s.pc.toNat + k)) = .ok (i, rest) → step s = exec i s

/-- 20_memory.md R67 (decision D18): a fetch reads the image as it stands, so whatever instruction has been stored at the pc is the one
that runs. -/
def Obligations.StoredCodeRuns : Prop :=
  ∀ (s : State) (i : Instr), s.status = .running → s.mem.wf → s.config.opcodes.wf →
    s.inBounds s.pc i.opcode.length = true →
    step (s.setMem (s.mem.writeBytes s.pc.toNat (encode s.config.opcodes i))) =
      exec i (s.setMem (s.mem.writeBytes s.pc.toNat (encode s.config.opcodes i)))

/-- 40_step.md R101, R102, R103 (decision D8) and their order (60_exceptions.md R206, decision D9): the faults of a fetch. The status
alone changes. -/
def Obligations.FetchFaults : Prop :=
  ∀ s : State, s.status = .running →
    (s.inBounds s.pc 1 = false → step s = .next (s.setStatus .badAddress)) ∧
    (s.inBounds s.pc 1 = true → (∀ op, s.config.opcodes.byteOf op ≠ s.byteAt s.pc.toNat) →
      step s = .next (s.setStatus .badInstruction)) ∧
    (∀ op, s.inBounds s.pc 1 = true → s.config.opcodes.opcodeOf (s.byteAt s.pc.toNat) = some op →
      s.inBounds s.pc op.length = false → step s = .next (s.setStatus .badAddress))

/-- 40_step.md R104, 30_encoding.md R88, R89 (decision D3): an instruction that fails a field check changes the status alone: BAD_ADDRESS
for IRMOVL's rA below 8, and `RegFieldFault` for a field that must name a register and does not. -/
def Obligations.FieldFaults : Prop :=
  ∀ (s : State) (i : Instr), i.wellFormed = false →
    (∀ rA rB V, i = .irmovl rA rB V → rA.toNat < 8 → exec i s = .next (s.setStatus .badAddress)) ∧
    ((∀ rA rB V, i = .irmovl rA rB V → 8 ≤ rA.toNat) →
      exec i s = .next (s.setStatus (match s.config.regFieldFault with
        | .badAddress => .badAddress
        | .badInstruction => .badInstruction)))

/-- 20_memory.md R51, R60, 60_exceptions.md R202, R205 (decision D10), 46_io.md R171, R172 (decision D15): a well-formed instruction
whose data access is not inside [0, Capacity) changes the status alone; a READ consumes no input. -/
def Obligations.AccessFaults : Prop :=
  ∀ (s : State) (i : Instr) (a : Word) (n : Nat), i.wellFormed = true → accessSpan i s = some (a, n) →
    ¬(0 ≤ a.toInt ∧ a.toInt + n ≤ s.config.capacity.val) → exec i s = .next (s.setStatus .badAddress)

/-- 60_exceptions.md R203: the one cause of HALTED, which is no fault. -/
def Obligations.HaltedOnlyByHalt : Prop :=
  ∀ s t : State, step s = .next t → (t.status = .halted ↔ s.fetch = .ok .halt) ∧
    (t.status = .halted → t.status.terminal = true ∧ t.status.faulted = false)

/-- 60_exceptions.md R200, R201: the causes of BAD_INSTRUCTION, an opcode byte in bounds that the map does not list; and the one the
parameter `RegFieldFault` adds when it says so (R200, decision D3). -/
def Obligations.BadInstructionCauses : Prop :=
  ∀ s t : State, step s = .next t → (t.status = .badInstruction ↔
    (s.inBounds s.pc 1 = true ∧ ∀ op, s.config.opcodes.byteOf op ≠ s.byteAt s.pc.toNat) ∨
    (s.config.regFieldFault = .badInstruction ∧ ∃ i, s.fetch = .ok i ∧ fieldTrap i = some .regFault))

/-- 60_exceptions.md R202 (decisions D3, D8): the causes of BAD_ADDRESS, complete. -/
def Obligations.BadAddressCauses : Prop :=
  ∀ s t : State, step s = .next t → (t.status = .badAddress ↔ FetchOutside s ∨ ∃ i, s.fetch = .ok i ∧
    (fieldTrap i = some .badAddress ∨ (fieldTrap i = some .regFault ∧ s.config.regFieldFault = .badAddress) ∨
      (fieldTrap i = none ∧ ∃ a n, accessSpan i s = some (a, n) ∧ s.inBounds a n = false)))

/-- 60_exceptions.md R205, R204, 40_step.md R106 (decisions D10, D11): a step that ends the run changes the status and nothing else: no
register, flag, byte of memory, pc, input position or output event. -/
def Obligations.EndingStepsArePrecise : Prop :=
  ∀ s t : State, step s = .next t → t.status.terminal = true → t = s.setStatus t.status

/-- 60_exceptions.md R218: a run ends in at most one state. -/
def Obligations.RunsEndOnce : Prop := ∀ s t u : State, EndsIn s t → EndsIn s u → t = u

/-- 10_state.md R29, R30: a completed instruction that is no jump, call or return moves the pc on by its length, and the addition never
wraps. -/
def Obligations.SequentialPc : Prop :=
  ∀ (s t : State) (i : Instr), step s = .next t → t.status = .running → s.fetch = .ok i →
    i.opcode ∉ [.jmp, .jle, .jl, .je, .jne, .jge, .jg, .call, .ret] → t.pc.toNat = s.pc.toNat + i.opcode.length

/-! ### What an instruction may change -/

/-- 20_memory.md R60: no instruction changes a byte outside the bytes its own rule stores to, and one that stores nothing changes no
byte. -/
def Obligations.MemoryWriters : Prop :=
  ∀ (i : Instr) (s t : State), s.mem.wf → exec i s = .next t →
    ∀ a, (∀ base n, storeSpan i s = some (base, n) → a < base.toNat ∨ base.toNat + n ≤ a) → t.byteAt a = s.byteAt a

/-- 20_memory.md R60: no instruction reads a byte of data outside its own access. Two memories that agree on the bytes an instruction
accesses give next states that differ in memory alone. -/
def Obligations.MemoryReaders : Prop :=
  ∀ (i : Instr) (s : State) (m : Memory),
    (∀ a n, accessSpan i s = some (a, n) → ∀ k, k < n → m.read (a.toNat + k) = s.byteAt (a.toNat + k)) →
    ∃ t u, exec i s = .next t ∧ exec i (s.setMem m) = .next u ∧ u = t.setMem u.mem

/-- 10_state.md R23, 30_encoding.md R86: no instruction changes a register but its destination, and SP where it is a stack instruction. -/
def Obligations.RegisterWriters : Prop :=
  ∀ (i : Instr) (s t : State), exec i s = .next t → RegsKept s t (destRegs i s)

/-- 10_state.md R26 (90_conflicts.md C1): who writes the flags. The ALU instructions write all three; READB and READL write ZF alone;
no other instruction writes one. -/
def Obligations.FlagWriters : Prop :=
  ∀ (i : Instr) (s t : State), exec i s = .next t → i.opcode ∉ [.addl, .subl, .andl, .xorl, .mull, .cmpl] →
    t.flags.OF = s.flags.OF ∧ t.flags.SF = s.flags.SF ∧
      (i.opcode ∉ [.readb, .readl] → t.flags.ZF = s.flags.ZF)

/-- 10_state.md R27: only the six conditional jumps read the flags. For any other instruction, two states that differ in the flags alone
give next states that differ in the flags alone, and not even there where an ALU instruction writes all three. -/
def Obligations.FlagReaders : Prop :=
  ∀ (i : Instr) (s : State) (f : Flags), i.opcode ∉ [.jle, .jl, .je, .jne, .jge, .jg] →
    ∃ t u, exec i s = .next t ∧ exec i (s.setFlags f) = .next u ∧ u = t.setFlags u.flags ∧
      (i.opcode ∈ [.addl, .subl, .andl, .xorl, .mull, .cmpl] → i.wellFormed = true → u = t)

/-- 10_state.md R35, 46_io.md R175: the output trace only grows, by one event, and only when a WRITEB or a WRITEL runs. -/
def Obligations.OutputOnlyGrows : Prop :=
  ∀ s t : State, step s = .next t → t.output = s.output ∨
    ∃ i, s.fetch = .ok i ∧ ((i.opcode = .writeb ∧ ∃ b, t.output = s.output ++ [.outByte b]) ∨
      (i.opcode = .writel ∧ ∃ w, t.output = s.output ++ [.outLong w]))

/-- 10_state.md R35, 46_io.md R170: the input position moves only when a READB or a READL runs and the host answers it. -/
def Obligations.InputOnlyRead : Prop :=
  ∀ s t : State, step s = .next t → t.input = s.input ∨
    ∃ i, s.fetch = .ok i ∧ ((i.opcode = .readb ∧ ∃ b, s.input.readByte = some (b, t.input)) ∨
      (i.opcode = .readl ∧ ∃ w, s.input.readLong = some (w, t.input)))

/-- 46_io.md R170 to R172, over runs of any length: when the host's input never ends, it still has no end wherever the run has come, and
a READB or a READL that runs there clears ZF. -/
def Obligations.UnendingInputNeverFails : Prop :=
  ∀ s t u : State, s.input.Unending → Reaches s t → step t = .next u →
    t.input.Unending ∧ ∀ i, t.fetch = .ok i → i.opcode ∈ [.readb, .readl] → u.status = .running → u.flags.ZF = false

/-! ### NOP and HALT -/

/-- 41_nop_halt.md R110: NOP moves the pc on by 1; everything else is as before. -/
def Obligations.NopAdvances : Prop :=
  ∀ s : State, ∃ t, exec .nop s = .next t ∧ t.pc = s.pc + 1 ∧ RegsKept s t [] ∧ t.flags = s.flags ∧ MemKept s t 0 0 ∧
    ChannelsKept s t ∧ ControlKept s t

/-- 41_nop_halt.md R111 (decision D11): HALT makes the status HALTED and leaves everything else, the pc too. -/
def Obligations.HaltStops : Prop :=
  ∀ s : State, ∃ t, exec .halt s = .next t ∧ t.status = .halted ∧ t.pc = s.pc ∧ RegsKept s t [] ∧ t.flags = s.flags ∧
    MemKept s t 0 0 ∧ ChannelsKept s t ∧ t.config = s.config

/-! ### Moves -/

/-- 42_moves.md R120: RRMOVL. -/
def Obligations.RrmovlCopies : Prop :=
  ∀ (s : State) (rA rB : RegField) (src dst : Reg), regOfField rA = some src → regOfField rB = some dst →
    ∃ t, exec (.rrmovl rA rB) s = .next t ∧ t.readReg dst = s.readReg src ∧ RegsKept s t [dst] ∧ t.flags = s.flags ∧
      t.pc = s.pc + 2 ∧ MemKept s t 0 0 ∧ ChannelsKept s t ∧ ControlKept s t

/-- 30_encoding.md R88: IRMOVL's rA must be 8..15; every such value is accepted, and any other ends in BAD_ADDRESS, whatever rB holds.
With it the effect of 42_moves.md R121. -/
def Obligations.IrmovlLoadsImmediate : Prop :=
  ∀ (s : State) (rA rB : RegField) (V : Word),
    (rA.toNat < 8 → exec (.irmovl rA rB V) s = .next (s.setStatus .badAddress)) ∧
    (8 ≤ rA.toNat → ∀ dst, regOfField rB = some dst →
      ∃ t, exec (.irmovl rA rB V) s = .next t ∧ t.readReg dst = V ∧ RegsKept s t [dst] ∧ t.flags = s.flags ∧
        t.pc = s.pc + 6 ∧ MemKept s t 0 0 ∧ ChannelsKept s t ∧ ControlKept s t)

/-- 42_moves.md R122 (address modulo 2^32: decision D6): RMMOVL. -/
def Obligations.RmmovlStores : Prop :=
  ∀ (s : State) (rA rB : RegField) (V : Word) (src base : Reg), s.mem.wf → regOfField rA = some src →
    regOfField rB = some base → s.inBounds (s.ea base V) 4 = true →
    ∃ t, exec (.rmmovl rA rB V) s = .next t ∧ HoldsWord t (s.readReg base + V).toNat (s.readReg src) ∧
      MemKept s t (s.readReg base + V).toNat 4 ∧ RegsKept s t [] ∧ t.flags = s.flags ∧ t.pc = s.pc + 6 ∧
      ChannelsKept s t ∧ ControlKept s t

/-- 42_moves.md R123 (address modulo 2^32: decision D6): MRMOVL; the destination is rA, and the address uses the old base. -/
def Obligations.MrmovlLoads : Prop :=
  ∀ (s : State) (rA rB : RegField) (V : Word) (dst base : Reg), regOfField rA = some dst →
    regOfField rB = some base → s.inBounds (s.ea base V) 4 = true →
    ∃ t, exec (.mrmovl rA rB V) s = .next t ∧ HoldsWord s (s.readReg base + V).toNat (t.readReg dst) ∧
      RegsKept s t [dst] ∧ t.flags = s.flags ∧ t.pc = s.pc + 6 ∧ MemKept s t 0 0 ∧ ChannelsKept s t ∧ ControlKept s t

/-! ### The ALU -/

/-- 43_alu.md R131: ZF and SF of every ALU instruction, from the wrapped result. -/
def Obligations.ZeroAndSignFlags : Prop :=
  ∀ (s : State) (rA rB : RegField) (ra rb : Reg), regOfField rA = some ra → regOfField rB = some rb →
    ∀ (i : Instr) (res : Word),
      (i, res) ∈ [(Instr.addl rA rB, s.readReg rb + s.readReg ra), (.subl rA rB, s.readReg rb - s.readReg ra),
        (.andl rA rB, s.readReg rb &&& s.readReg ra), (.xorl rA rB, s.readReg rb ^^^ s.readReg ra),
        (.mull rA rB, s.readReg rb * s.readReg ra), (.cmpl rA rB, s.readReg rb - s.readReg ra)] →
      ∃ t, exec i s = .next t ∧ (t.flags.ZF = true ↔ res = 0x00000000) ∧ (t.flags.SF = true ↔ res.toInt < 0) ∧
        t.flags.SF = res.getLsbD 31

/-- 43_alu.md R132, R133: ADDL and SUBL: b + a and b − a modulo 2^32, OF when the exact signed result does not fit 32 bits. -/
def Obligations.AddlSublResults : Prop :=
  ∀ (s : State) (rA rB : RegField) (ra rb : Reg), regOfField rA = some ra → regOfField rB = some rb →
    AluEffect (.addl rA rB) s [rb] (s.readReg rb + s.readReg ra)
      (¬(-2 ^ 31 ≤ (s.readReg rb).toInt + (s.readReg ra).toInt ∧
        (s.readReg rb).toInt + (s.readReg ra).toInt ≤ 2 ^ 31 - 1)) ∧
    AluEffect (.subl rA rB) s [rb] (s.readReg rb - s.readReg ra)
      (¬(-2 ^ 31 ≤ (s.readReg rb).toInt - (s.readReg ra).toInt ∧
        (s.readReg rb).toInt - (s.readReg ra).toInt ≤ 2 ^ 31 - 1))

/-- 43_alu.md R132, R133: OF of ADDL and SUBL read off the sign bits: operands of one sign (of two signs, for SUBL) and a result of the
other. -/
def Obligations.OverflowFromSigns : Prop :=
  ∀ (s t : State) (rA rB : RegField) (ra rb : Reg), regOfField rA = some ra → regOfField rB = some rb →
    (exec (.addl rA rB) s = .next t → (t.flags.OF = true ↔ (s.readReg ra).msb = (s.readReg rb).msb ∧
      (s.readReg rb + s.readReg ra).msb ≠ (s.readReg rb).msb)) ∧
    (exec (.subl rA rB) s = .next t → (t.flags.OF = true ↔ (s.readReg ra).msb ≠ (s.readReg rb).msb ∧
      (s.readReg rb - s.readReg ra).msb ≠ (s.readReg rb).msb))

/-- 43_alu.md R136: MULL: the low 32 bits of the exact signed product, OF when the product does not fit 32 bits. -/
def Obligations.MullResult : Prop :=
  ∀ (s : State) (rA rB : RegField) (ra rb : Reg), regOfField rA = some ra → regOfField rB = some rb →
    AluEffect (.mull rA rB) s [rb] (BitVec.ofInt 32 ((s.readReg rb).toInt * (s.readReg ra).toInt))
      (¬(-2 ^ 31 ≤ (s.readReg rb).toInt * (s.readReg ra).toInt ∧
        (s.readReg rb).toInt * (s.readReg ra).toInt ≤ 2 ^ 31 - 1))

/-- 43_alu.md R134, R135: ANDL and XORL: the bitwise result, OF cleared (for XORL by decision D5). -/
def Obligations.AndlXorlResults : Prop :=
  ∀ (s : State) (rA rB : RegField) (ra rb : Reg), regOfField rA = some ra → regOfField rB = some rb →
    AluEffect (.andl rA rB) s [rb] (s.readReg rb &&& s.readReg ra) False ∧
    AluEffect (.xorl rA rB) s [rb] (s.readReg rb ^^^ s.readReg ra) False

/-- 43_alu.md R137: CMPL: the flags of b − a, and no register changes. -/
def Obligations.CmplOnlyFlags : Prop :=
  ∀ (s : State) (rA rB : RegField) (ra rb : Reg), regOfField rA = some ra → regOfField rB = some rb →
    AluEffect (.cmpl rA rB) s [] (s.readReg rb - s.readReg ra)
      (¬(-2 ^ 31 ≤ (s.readReg rb).toInt - (s.readReg ra).toInt ∧
        (s.readReg rb).toInt - (s.readReg ra).toInt ≤ 2 ^ 31 - 1))

/-! ### Jumps -/

/-- 44_jumps.md R150 to R157: every jump writes the pc alone; JMP always goes to its target, a conditional one goes there or on by 5. The
target is not checked (decision D24). -/
def Obligations.JumpTargets : Prop :=
  ∀ (s : State) (dest : Word),
    exec (.jmp dest) s = .next (s.setPc dest) ∧
    exec (.jle dest) s = .next (s.setPc (if s.flags.ZF = true ∨ s.flags.SF ≠ s.flags.OF then dest else s.pc + 5)) ∧
    exec (.jl dest) s = .next (s.setPc (if s.flags.ZF = false ∧ s.flags.SF ≠ s.flags.OF then dest else s.pc + 5)) ∧
    exec (.je dest) s = .next (s.setPc (if s.flags.ZF = true then dest else s.pc + 5)) ∧
    exec (.jne dest) s = .next (s.setPc (if s.flags.ZF = false then dest else s.pc + 5)) ∧
    exec (.jge dest) s = .next (s.setPc (if s.flags.ZF = true ∨ s.flags.SF = s.flags.OF then dest else s.pc + 5)) ∧
    exec (.jg dest) s = .next (s.setPc (if s.flags.ZF = false ∧ s.flags.SF = s.flags.OF then dest else s.pc + 5))

/-- 44_jumps.md R158: after CMPL or SUBL, overflow or not, the conditional jumps are the signed comparisons of b with a. -/
def Obligations.CompareThenJump : Prop :=
  ∀ (s t : State) (rA rB : RegField) (ra rb : Reg) (dest : Word), regOfField rA = some ra → regOfField rB = some rb →
    (exec (.cmpl rA rB) s = .next t ∨ exec (.subl rA rB) s = .next t) →
    exec (.jl dest) t = .next (t.setPc (if (s.readReg rb).toInt < (s.readReg ra).toInt then dest else t.pc + 5)) ∧
    exec (.jle dest) t = .next (t.setPc (if (s.readReg rb).toInt ≤ (s.readReg ra).toInt then dest else t.pc + 5)) ∧
    exec (.je dest) t = .next (t.setPc (if s.readReg rb = s.readReg ra then dest else t.pc + 5)) ∧
    exec (.jne dest) t = .next (t.setPc (if s.readReg rb ≠ s.readReg ra then dest else t.pc + 5)) ∧
    exec (.jge dest) t = .next (t.setPc (if (s.readReg ra).toInt ≤ (s.readReg rb).toInt then dest else t.pc + 5)) ∧
    exec (.jg dest) t = .next (t.setPc (if (s.readReg ra).toInt < (s.readReg rb).toInt then dest else t.pc + 5))

/-! ### The stack -/

/-- 45_call_stack.md R160: CALL pushes pc + 5 and goes to its target. -/
def Obligations.CallPushes : Prop :=
  ∀ (s : State) (dest : Word), s.mem.wf → s.inBounds (s.readReg .SP - 4) 4 = true →
    ∃ t, exec (.call dest) s = .next t ∧ HoldsWord t (s.readReg .SP - 4).toNat (s.pc + 5) ∧
      MemKept s t (s.readReg .SP - 4).toNat 4 ∧ t.readReg .SP = s.readReg .SP - 4 ∧ RegsKept s t [.SP] ∧
      t.pc = dest ∧ t.flags = s.flags ∧ ChannelsKept s t ∧ ControlKept s t

/-- 45_call_stack.md R161: RET pops the pc. -/
def Obligations.RetPops : Prop :=
  ∀ s : State, s.inBounds (s.readReg .SP) 4 = true →
    ∃ t, exec .ret s = .next t ∧ HoldsWord s (s.readReg .SP).toNat t.pc ∧ t.readReg .SP = s.readReg .SP + 4 ∧
      RegsKept s t [.SP] ∧ t.flags = s.flags ∧ MemKept s t 0 0 ∧ ChannelsKept s t ∧ ControlKept s t

/-- 45_call_stack.md R160: CALL followed by RET returns to the instruction after the CALL with every register, SP too, as before. -/
def Obligations.CallThenRet : Prop :=
  ∀ (s : State) (dest : Word), s.mem.wf → s.inBounds (s.readReg .SP - 4) 4 = true →
    ∃ t u, exec (.call dest) s = .next t ∧ exec .ret t = .next u ∧ u.pc = s.pc + 5 ∧ RegsKept s u [] ∧ u.flags = s.flags ∧
      MemKept s u (s.readReg .SP - 4).toNat 4

/-- 45_call_stack.md R162 (`SPSelfMode`: decision D12): PUSHL stores the register, or for SP itself SP − 4 (Literal) or SP (Classic). The
rB field is ignored. -/
def Obligations.PushlStores : Prop :=
  ∀ (s : State) (rA rB : RegField) (r : Reg), s.mem.wf → regOfField rA = some r →
    s.inBounds (s.readReg .SP - 4) 4 = true →
    ∃ t v, exec (.pushl rA rB) s = .next t ∧
      (r ≠ .SP → v = s.readReg r) ∧
      (r = .SP → s.config.spSelfMode = .literal → v = s.readReg .SP - 4) ∧
      (r = .SP → s.config.spSelfMode = .classic → v = s.readReg .SP) ∧
      HoldsWord t (s.readReg .SP - 4).toNat v ∧ MemKept s t (s.readReg .SP - 4).toNat 4 ∧
      t.readReg .SP = s.readReg .SP - 4 ∧ RegsKept s t [.SP] ∧ t.flags = s.flags ∧ t.pc = s.pc + 2 ∧
      ChannelsKept s t ∧ ControlKept s t

/-- 45_call_stack.md R163 (`SPSelfMode`: decision D12): POPL loads the register and moves SP up by 4; for SP itself, SP is the word + 4
(Literal) or the word (Classic). The rB field is ignored. -/
def Obligations.PoplLoads : Prop :=
  ∀ (s : State) (rA rB : RegField) (r : Reg), regOfField rA = some r → s.inBounds (s.readReg .SP) 4 = true →
    ∃ t v, exec (.popl rA rB) s = .next t ∧ HoldsWord s (s.readReg .SP).toNat v ∧
      (r ≠ .SP → t.readReg r = v ∧ t.readReg .SP = s.readReg .SP + 4) ∧
      (r = .SP → s.config.spSelfMode = .literal → t.readReg .SP = v + 4) ∧
      (r = .SP → s.config.spSelfMode = .classic → t.readReg .SP = v) ∧
      RegsKept s t [r, .SP] ∧ t.flags = s.flags ∧ t.pc = s.pc + 2 ∧ MemKept s t 0 0 ∧ ChannelsKept s t ∧ ControlKept s t

/-- 20_memory.md R69, 45_call_stack.md R163: PUSHL then POPL of the same register both complete, SP being 4 lower between them, and leave
every register as it was, SP itself included and under both values of `SPSelfMode`. -/
def Obligations.PushThenPop : Prop :=
  ∀ (s : State) (rA rB rB' : RegField) (r : Reg), s.mem.wf → regOfField rA = some r →
    s.inBounds (s.readReg .SP - 4) 4 = true →
    ∃ t u, exec (.pushl rA rB) s = .next t ∧ t.readReg .SP = s.readReg .SP - 4 ∧ t.pc = s.pc + 2 ∧ ControlKept s t ∧
      exec (.popl rA rB') t = .next u ∧ RegsKept s u [] ∧ u.pc = s.pc + 4 ∧ u.flags = s.flags ∧
      MemKept s u (s.readReg .SP - 4).toNat 4 ∧ ChannelsKept s u ∧ ControlKept s u

/-! ### Input and output -/

/-- 46_io.md R171, R172 (decisions D14, D15): a READB or READL the host answers stores the answer, clears ZF and moves the input on. The
rB field is ignored. -/
def Obligations.ReadsStore : Prop :=
  ∀ (s : State) (rA rB : RegField) (V : Word) (base : Reg), s.mem.wf → regOfField rA = some base →
    (∀ b input, s.inBounds (s.ea base V) 1 = true → s.input.readByte = some (b, input) →
      ∃ t, exec (.readb rA rB V) s = .next t ∧ t.byteAt (s.readReg base + V).toNat = b ∧
        MemKept s t (s.readReg base + V).toNat 1 ∧ t.flags = { s.flags with ZF := false } ∧ t.input = input ∧
        t.output = s.output ∧ RegsKept s t [] ∧ t.pc = s.pc + 6 ∧ ControlKept s t) ∧
    (∀ w input, s.inBounds (s.ea base V) 4 = true → s.input.readLong = some (w, input) →
      ∃ t, exec (.readl rA rB V) s = .next t ∧ HoldsWord t (s.readReg base + V).toNat w ∧
        MemKept s t (s.readReg base + V).toNat 4 ∧ t.flags = { s.flags with ZF := false } ∧ t.input = input ∧
        t.output = s.output ∧ RegsKept s t [] ∧ t.pc = s.pc + 6 ∧ ControlKept s t)

/-- 60_exceptions.md R211: a failed READB or READL is no fault: it sets ZF and execution goes on, with nothing else changed (decision
D14). -/
def Obligations.FailedReadsSetZF : Prop :=
  ∀ (s : State) (rA rB : RegField) (V : Word) (base : Reg), regOfField rA = some base →
    (s.inBounds (s.ea base V) 1 = true → s.input.readByte = none →
      ∃ t, exec (.readb rA rB V) s = .next t ∧ t.flags = { s.flags with ZF := true } ∧ t.pc = s.pc + 6 ∧
        MemKept s t 0 0 ∧ RegsKept s t [] ∧ ChannelsKept s t ∧ ControlKept s t) ∧
    (s.inBounds (s.ea base V) 4 = true → s.input.readLong = none →
      ∃ t, exec (.readl rA rB V) s = .next t ∧ t.flags = { s.flags with ZF := true } ∧ t.pc = s.pc + 6 ∧
        MemKept s t 0 0 ∧ RegsKept s t [] ∧ ChannelsKept s t ∧ ControlKept s t)

/-- 46_io.md R173, R174: WRITEB and WRITEL emit the byte or the word at their address. The rB field is ignored. -/
def Obligations.WritesEmit : Prop :=
  ∀ (s : State) (rA rB : RegField) (V : Word) (base : Reg), regOfField rA = some base →
    (s.inBounds (s.ea base V) 1 = true →
      ∃ t, exec (.writeb rA rB V) s = .next t ∧
        t.output = s.output ++ [.outByte (s.byteAt (s.readReg base + V).toNat)] ∧ t.input = s.input ∧
        RegsKept s t [] ∧ t.flags = s.flags ∧ t.pc = s.pc + 6 ∧ MemKept s t 0 0 ∧ ControlKept s t) ∧
    (s.inBounds (s.ea base V) 4 = true →
      ∃ t w, exec (.writel rA rB V) s = .next t ∧ HoldsWord s (s.readReg base + V).toNat w ∧
        t.output = s.output ++ [.outLong w] ∧ t.input = s.input ∧
        RegsKept s t [] ∧ t.flags = s.flags ∧ t.pc = s.pc + 6 ∧ MemKept s t 0 0 ∧ ControlKept s t)

/-! ### MOVSBL -/

/-- 47_movsbl.md R180 (`MovsblFieldOrder`: decision D17): MOVSBL puts the signed value of the byte at its address into the destination;
which field is the base and which the destination is the parameter's. The address uses the old base. -/
def Obligations.MovsblSignExtends : Prop :=
  ∀ (s : State) (rA rB : RegField) (V : Word) (ra rb base dst : Reg), regOfField rA = some ra → regOfField rB = some rb →
    (s.config.movsblFieldOrder = .baseHigh → base = ra ∧ dst = rb) →
    (s.config.movsblFieldOrder = .baseLow → base = rb ∧ dst = ra) →
    s.inBounds (s.ea base V) 1 = true →
    ∃ t, exec (.movsbl rA rB V) s = .next t ∧
      (t.readReg dst).toInt = (s.byteAt (s.readReg base + V).toNat).toInt ∧
      RegsKept s t [dst] ∧ t.flags = s.flags ∧ t.pc = s.pc + 6 ∧ MemKept s t 0 0 ∧ ChannelsKept s t ∧ ControlKept s t
end

