-- ==== Sys2Proof/Laws/Decode.lean ====
section
/-! SUPPORT. The codec, the opcode map and the decoder: one lemma each for what they answer. -/

namespace Sys2Proof

/-- `LE32(LE32enc(w)) = w`, byte by byte (20_memory.md R55). -/
theorem le32_extract (w : Word) :
    le32 (w.extractLsb' 0 8) (w.extractLsb' 8 8) (w.extractLsb' 16 8) (w.extractLsb' 24 8) = w := by
  apply BitVec.eq_of_getLsbD_eq
  intro i hi
  simp only [le32, BitVec.getLsbD_append, BitVec.getLsbD_extractLsb']
  split
  · simp_all
  · split
    · simp only [show i - 8 < 8 by omega, decide_true, Bool.true_and, show 8 + (i - 8) = i by omega]
    · split
      · simp only [show i - 8 - 8 < 8 by omega, decide_true, Bool.true_and, show 16 + (i - 8 - 8) = i by omega]
      · simp only [show i - 8 - 8 - 8 < 8 by omega, decide_true, Bool.true_and, show 24 + (i - 8 - 8 - 8) = i by omega]

/-- `LE32enc(LE32(b0, b1, b2, b3)) = (b0, b1, b2, b3)` (20_memory.md R55). -/
theorem le32Bytes_le32 (b0 b1 b2 b3 : Byte) : le32Bytes (le32 b0 b1 b2 b3) = [b0, b1, b2, b3] := by
  have bits : ∀ k (x : Byte), (∀ i, i < 8 → (b3 ++ b2 ++ b1 ++ b0 : Word).getLsbD (k + i) = x.getLsbD i) →
      (le32 b0 b1 b2 b3).extractLsb' k 8 = x := fun k x h => by
    apply BitVec.eq_of_getLsbD_eq
    intro i hi
    rw [BitVec.getLsbD_extractLsb', decide_eq_true hi, Bool.true_and]
    exact h i hi
  rw [le32Bytes, bits 0 b0, bits 8 b1, bits 16 b2, bits 24 b3] <;> intro i hi <;> simp only [BitVec.getLsbD_append]
  · rw [if_neg (by omega), if_neg (by omega), if_neg (by omega)]
    congr 1
    omega
  · rw [if_neg (by omega), if_neg (by omega), if_pos (by omega)]
    congr 1
    omega
  · rw [if_neg (by omega), if_pos (by omega)]
    congr 1
    omega
  · rw [if_pos (by omega)]
    congr 1
    omega

theorem regByte_fields (b : Byte) : regByte (regFieldA b) (regFieldB b) = b := by
  revert b
  decide

theorem regFieldA_regByte (rA rB : RegField) : regFieldA (regByte rA rB) = rA := by
  revert rA rB
  decide

theorem regFieldB_regByte (rA rB : RegField) : regFieldB (regByte rA rB) = rB := by
  revert rA rB
  decide

theorem Opcode.mem_all (op : Opcode) : op ∈ Opcode.all := by
  cases op <;> decide

/-- What a byte selects is an opcode the map gives that byte (30_encoding.md R81). -/
theorem OpcodeMap.byteOf_of_opcodeOf {m : OpcodeMap} {b : Byte} {op : Opcode} (h : m.opcodeOf b = some op) :
    m.byteOf op = b := by
  simpa using List.find?_some h

/-- In a legal map the byte of an opcode selects that opcode. -/
theorem OpcodeMap.opcodeOf_byteOf {m : OpcodeMap} (hm : m.wf) (op : Opcode) : m.opcodeOf (m.byteOf op) = some op := by
  cases h : m.opcodeOf (m.byteOf op) with
  | none => exact absurd (List.find?_eq_none.1 h op (Opcode.mem_all op)) (by simp)
  | some op' =>
    exact congrArg some (List.inj_on_of_nodup_map hm (Opcode.mem_all op') (Opcode.mem_all op) (byteOf_of_opcodeOf h))

/-- A byte selects no opcode exactly when no opcode has it (30_encoding.md R91). -/
theorem OpcodeMap.opcodeOf_eq_none {m : OpcodeMap} {b : Byte} : m.opcodeOf b = none ↔ ∀ op, m.byteOf op ≠ b := by
  simp [OpcodeMap.opcodeOf, List.find?_eq_none, Opcode.mem_all]

theorem OpcodeMap.reference_wf : OpcodeMap.reference.wf := by
  decide

/-- What the decoder answers on a byte that selects an opcode. -/
theorem decode_of_opcodeOf {m : OpcodeMap} {b : Byte} {op : Opcode} (h : m.opcodeOf b = some op) (bs : List Byte) :
    decode m (b :: bs) = if (b :: bs).length < op.length then .error (.truncated op)
      else .ok (assemble op fun k => (b :: bs).getD k 0, (b :: bs).drop op.length) := by
  simp only [decode, h]

/-- What the decoder answers when it answers an instruction. -/
theorem decode_ok {m : OpcodeMap} {bytes rest : List Byte} {i : Instr} : decode m bytes = .ok (i, rest) ↔
    ∃ b bs op, bytes = b :: bs ∧ m.opcodeOf b = some op ∧ op.length ≤ bytes.length ∧
      i = assemble op (fun k => bytes.getD k 0) ∧ rest = bytes.drop op.length := by
  constructor
  · intro h
    cases bytes with
    | nil => simp [decode] at h
    | cons b bs =>
      cases ho : m.opcodeOf b with
      | none => simp [decode, ho] at h
      | some op =>
        rw [decode_of_opcodeOf ho] at h
        split at h
        · cases h
        · cases h
          exact ⟨b, bs, op, rfl, ho, by omega, rfl, rfl⟩
  · rintro ⟨b, bs, op, rfl, ho, hl, rfl, rfl⟩
    rw [decode_of_opcodeOf ho, if_neg (by omega)]

/-- The decoder's instruction has the opcode that its first byte selects. -/
@[simp] theorem assemble_opcode (op : Opcode) (f : Nat → Byte) : (assemble op f).opcode = op := by
  cases op <;> rfl

/-- `assemble` reads nothing beyond the instruction's own length. -/
theorem assemble_congr (op : Opcode) {f g : Nat → Byte} (h : ∀ k, k < op.length → f k = g k) :
    assemble op f = assemble op g := by
  cases op <;> simp_all [assemble, Opcode.length, Opcode.format, Format.length]

end Sys2Proof
end

