-- ==== Sys2Proof/Laws/Memory.lean ====
section
/-! SUPPORT. The laws of the memory image: a read after a write, a write leaves every other byte, and every write keeps the canonical
form (Memory.wf) and the bound on the cells. -/

namespace Sys2Proof.Machine

theorem Memory.wf_nil : Memory.wf [] := ⟨List.Pairwise.nil, by simp⟩

theorem Memory.wf_cons {c : Host.Cell} {m : Memory} :
    Memory.wf (c :: m) ↔ (∀ d ∈ m, c.1 < d.1) ∧ c.2 ≠ Memory.unlisted ∧ Memory.wf m := by
  simp only [Memory.wf, List.pairwise_cons, List.mem_cons, forall_eq_or_imp]
  tauto

/-- An address below every cell reads as unlisted. -/
theorem Memory.read_of_lt {m : Memory} {a : Nat} (h : ∀ d ∈ m, a < d.1) : m.read a = Memory.unlisted := by
  induction m with
  | nil => rfl
  | cons c m ih =>
    have hc : a ≠ c.1 := Nat.ne_of_lt (h c (by simp))
    rw [Memory.read, if_neg hc]
    exact ih fun d hd => h d (by simp [hd])

/-- Every cell after a write is the written one or was there before. -/
theorem Memory.mem_write {m : Memory} {a : Nat} {b : Byte} {c : Host.Cell} (h : c ∈ m.write a b) :
    c ∈ m ∨ (c = (a, b) ∧ b ≠ Memory.unlisted) := by
  induction m with
  | nil =>
    rw [Memory.write] at h
    split at h <;> simp_all
  | cons d m ih =>
    rw [Memory.write] at h
    split at h
    · split at h
      · exact .inl h
      · rcases List.mem_cons.1 h with h | h
        · exact .inr ⟨h, ‹_›⟩
        · exact .inl h
    · split at h
      · split at h
        · exact .inl (List.mem_cons_of_mem _ h)
        · rcases List.mem_cons.1 h with h | h
          · exact .inr ⟨h, ‹_›⟩
          · exact .inl (List.mem_cons_of_mem _ h)
      · rcases List.mem_cons.1 h with h | h
        · exact .inl (by simp [h])
        · exact (ih h).imp_left (List.mem_cons_of_mem _)

/-- Every write keeps the canonical form. -/
theorem Memory.wf_write {m : Memory} (hm : m.wf) (a : Nat) (b : Byte) : (m.write a b).wf := by
  induction m with
  | nil =>
    rw [Memory.write]
    split
    · exact Memory.wf_nil
    · exact Memory.wf_cons.2 ⟨by simp, ‹_›, Memory.wf_nil⟩
  | cons d m ih =>
    obtain ⟨hd, hz, hw⟩ := Memory.wf_cons.1 hm
    rw [Memory.write]
    split
    · split
      · exact hm
      · refine Memory.wf_cons.2 ⟨fun e he => ?_, ‹_›, hm⟩
        rcases List.mem_cons.1 he with rfl | he
        · assumption
        · exact Nat.lt_trans ‹_› (hd e he)
    · split
      · subst a
        split
        · exact hw
        · exact Memory.wf_cons.2 ⟨hd, ‹_›, hw⟩
      · refine Memory.wf_cons.2 ⟨fun e he => ?_, hz, ih hw⟩
        rcases Memory.mem_write he with he | ⟨rfl, -⟩
        · exact hd e he
        · exact Nat.lt_of_le_of_ne (Nat.le_of_not_lt ‹_›) (Ne.symm ‹_›)

/-- A read after a write sees the written byte at its address and the old bytes everywhere else. -/
theorem Memory.read_write {m : Memory} (hm : m.wf) (a : Nat) (b : Byte) (k : Nat) :
    (m.write a b).read k = if k = a then b else m.read k := by
  induction m with
  | nil =>
    rw [Memory.write]
    split <;> simp_all [Memory.read]
  | cons d m ih =>
    obtain ⟨hd, -, hw⟩ := Memory.wf_cons.1 hm
    rw [Memory.write]
    split
    next hlt =>
      split
      next hb =>
        have hr : Memory.read (d :: m) a = Memory.unlisted := by
          refine Memory.read_of_lt fun e he => ?_
          rcases List.mem_cons.1 he with rfl | he
          · exact hlt
          · exact Nat.lt_trans hlt (hd e he)
        split
        · simp_all
        · rfl
      · rfl
    next hge =>
      split
      next heq =>
        subst a
        split
        next hb =>
          by_cases hk : k = d.1
          · subst hk
            rw [if_pos rfl, Memory.read_of_lt hd, hb]
          · rw [if_neg hk, Memory.read, if_neg hk]
        next hb =>
          simp only [Memory.read]
          split <;> simp_all
      next hne =>
        by_cases hk : k = d.1
        · subst hk
          simp [Memory.read, Ne.symm hne]
        · simp only [Memory.read, if_neg hk]
          exact ih hw

theorem Memory.wf_writeBytes (bs : List Byte) : ∀ {m : Memory}, m.wf → ∀ a, (m.writeBytes a bs).wf := by
  induction bs with
  | nil => exact fun hm _ => hm
  | cons b bs ih => exact fun hm a => ih (Memory.wf_write hm a b) (a + 1)

/-- A read after a write of consecutive bytes. -/
theorem Memory.read_writeBytes (bs : List Byte) : ∀ {m : Memory}, m.wf → ∀ a k : Nat,
    (m.writeBytes a bs).read k = if a ≤ k ∧ k < a + bs.length then bs.getD (k - a) 0 else m.read k := by
  induction bs with
  | nil =>
    intro m hm a k
    have : ¬ (a ≤ k ∧ k < a + ([] : List Byte).length) := by simp
    rw [if_neg this]
    rfl
  | cons b bs ih =>
    intro m hm a k
    rw [Memory.writeBytes, ih (Memory.wf_write hm a b), Memory.read_write hm]
    rcases Nat.lt_trichotomy k a with h | h | h
    · rw [if_neg (by omega), if_neg (by omega), if_neg (by simp; omega)]
    · subst h
      rw [if_neg (by omega), if_pos rfl, if_pos (by simp)]
      simp
    · have e : k - a = (k - (a + 1)) + 1 := by omega
      by_cases hin : k < a + 1 + bs.length
      · rw [if_pos ⟨by omega, hin⟩, if_pos ⟨by omega, by simp; omega⟩, e]
        rfl
      · rw [if_neg (by omega), if_neg (by omega), if_neg (by simp; omega)]

/-- A write inside a bound keeps every cell inside it. -/
theorem Memory.bounded_writeBytes (cap : Nat) (bs : List Byte) : ∀ {m : Memory}, (∀ c ∈ m, c.1 < cap) → ∀ a,
    (bs = [] ∨ a + bs.length ≤ cap) → ∀ c ∈ m.writeBytes a bs, c.1 < cap := by
  induction bs with
  | nil => exact fun hm _ _ => hm
  | cons b bs ih =>
    intro m hm a h
    have h : a + (b :: bs).length ≤ cap := by simpa using h
    rw [List.length_cons] at h
    refine ih (fun c hc => ?_) (a + 1) (.inr (by omega))
    rcases Memory.mem_write hc with hc | ⟨rfl, -⟩
    · exact hm c hc
    · show a < cap
      omega

/-- Two canonical images that read alike everywhere are equal. -/
theorem Memory.ext_read {m : Memory} : ∀ {n : Memory}, m.wf → n.wf → (∀ a, m.read a = n.read a) → m = n := by
  induction m with
  | nil =>
    intro n _ hn h
    cases n with
    | nil => rfl
    | cons d n =>
      have hd := h d.1
      exact absurd (by simpa [Memory.read] using hd.symm) (Memory.wf_cons.1 hn).2.1
  | cons c m ih =>
    intro n hm hn h
    obtain ⟨hc, hcz, hmw⟩ := Memory.wf_cons.1 hm
    cases n with
    | nil =>
      have hd := h c.1
      exact absurd (by simpa [Memory.read] using hd) hcz
    | cons d n =>
      obtain ⟨hd, hdz, hnw⟩ := Memory.wf_cons.1 hn
      have key : c.1 = d.1 := by
        rcases Nat.lt_trichotomy c.1 d.1 with hlt | heq | hgt
        · have e := h c.1
          rw [Memory.read, if_pos rfl, Memory.read_of_lt (m := d :: n)] at e
          · exact absurd e hcz
          · intro x hx
            rcases List.mem_cons.1 hx with rfl | hx
            · exact hlt
            · exact Nat.lt_trans hlt (hd x hx)
        · exact heq
        · have e := h d.1
          rw [Memory.read_of_lt (m := c :: m)] at e
          · exact absurd (by simpa [Memory.read] using e.symm) hdz
          · intro x hx
            rcases List.mem_cons.1 hx with rfl | hx
            · exact hgt
            · exact Nat.lt_trans hgt (hc x hx)
      have val : c.2 = d.2 := by
        have e := h c.1
        rw [Memory.read, if_pos rfl, Memory.read, if_pos key] at e
        exact e
      have tail : m = n := by
        refine ih hmw hnw fun a => ?_
        by_cases ha : a = c.1
        · subst ha
          rw [Memory.read_of_lt hc, Memory.read_of_lt (by rw [key]; exact hd)]
        · have e := h a
          rwa [Memory.read, if_neg ha, Memory.read, if_neg (by rw [← key]; exact ha)] at e
      rw [tail, Prod.ext key val]

end Sys2Proof.Machine
end

