-- ==== Sys2Proof/Laws/State.lean ====
section
/-! SUPPORT. One lemma per field of State per update of Machine/Ops.lean, each true by `rfl`, and what the reads see after an update. -/

namespace Sys2Proof.Machine

variable (s : State)

/-! ### writeReg -/

@[simp] theorem State.writeReg_regs (r : Reg) (v : Word) : (s.writeReg r v).regs = s.regs.set r v := rfl
@[simp] theorem State.writeReg_flags (r : Reg) (v : Word) : (s.writeReg r v).flags = s.flags := rfl
@[simp] theorem State.writeReg_pc (r : Reg) (v : Word) : (s.writeReg r v).pc = s.pc := rfl
@[simp] theorem State.writeReg_status (r : Reg) (v : Word) : (s.writeReg r v).status = s.status := rfl
@[simp] theorem State.writeReg_mem (r : Reg) (v : Word) : (s.writeReg r v).mem = s.mem := rfl
@[simp] theorem State.writeReg_input (r : Reg) (v : Word) : (s.writeReg r v).input = s.input := rfl
@[simp] theorem State.writeReg_output (r : Reg) (v : Word) : (s.writeReg r v).output = s.output := rfl
@[simp] theorem State.writeReg_config (r : Reg) (v : Word) : (s.writeReg r v).config = s.config := rfl
@[simp] theorem State.writeReg_byteAt (r : Reg) (v : Word) (k : Nat) : (s.writeReg r v).byteAt k = s.byteAt k := rfl
@[simp] theorem State.writeReg_inBounds (r : Reg) (v : Word) (w : Word) (k : Nat) : (s.writeReg r v).inBounds w k = s.inBounds w k := rfl

/-! ### setFlags -/

@[simp] theorem State.setFlags_regs (f : Flags) : (s.setFlags f).regs = s.regs := rfl
@[simp] theorem State.setFlags_flags (f : Flags) : (s.setFlags f).flags = f := rfl
@[simp] theorem State.setFlags_pc (f : Flags) : (s.setFlags f).pc = s.pc := rfl
@[simp] theorem State.setFlags_status (f : Flags) : (s.setFlags f).status = s.status := rfl
@[simp] theorem State.setFlags_mem (f : Flags) : (s.setFlags f).mem = s.mem := rfl
@[simp] theorem State.setFlags_input (f : Flags) : (s.setFlags f).input = s.input := rfl
@[simp] theorem State.setFlags_output (f : Flags) : (s.setFlags f).output = s.output := rfl
@[simp] theorem State.setFlags_config (f : Flags) : (s.setFlags f).config = s.config := rfl
@[simp] theorem State.setFlags_readReg (f : Flags) (q : Reg) : (s.setFlags f).readReg q = s.readReg q := rfl
@[simp] theorem State.setFlags_byteAt (f : Flags) (k : Nat) : (s.setFlags f).byteAt k = s.byteAt k := rfl
@[simp] theorem State.setFlags_inBounds (f : Flags) (w : Word) (k : Nat) : (s.setFlags f).inBounds w k = s.inBounds w k := rfl

/-! ### setZF -/

@[simp] theorem State.setZF_regs (z : Bool) : (s.setZF z).regs = s.regs := rfl
@[simp] theorem State.setZF_flags (z : Bool) : (s.setZF z).flags = { s.flags with ZF := z } := rfl
@[simp] theorem State.setZF_pc (z : Bool) : (s.setZF z).pc = s.pc := rfl
@[simp] theorem State.setZF_status (z : Bool) : (s.setZF z).status = s.status := rfl
@[simp] theorem State.setZF_mem (z : Bool) : (s.setZF z).mem = s.mem := rfl
@[simp] theorem State.setZF_input (z : Bool) : (s.setZF z).input = s.input := rfl
@[simp] theorem State.setZF_output (z : Bool) : (s.setZF z).output = s.output := rfl
@[simp] theorem State.setZF_config (z : Bool) : (s.setZF z).config = s.config := rfl
@[simp] theorem State.setZF_readReg (z : Bool) (q : Reg) : (s.setZF z).readReg q = s.readReg q := rfl
@[simp] theorem State.setZF_byteAt (z : Bool) (k : Nat) : (s.setZF z).byteAt k = s.byteAt k := rfl
@[simp] theorem State.setZF_inBounds (z : Bool) (w : Word) (k : Nat) : (s.setZF z).inBounds w k = s.inBounds w k := rfl

/-! ### setPc -/

@[simp] theorem State.setPc_regs (a : Word) : (s.setPc a).regs = s.regs := rfl
@[simp] theorem State.setPc_flags (a : Word) : (s.setPc a).flags = s.flags := rfl
@[simp] theorem State.setPc_pc (a : Word) : (s.setPc a).pc = a := rfl
@[simp] theorem State.setPc_status (a : Word) : (s.setPc a).status = s.status := rfl
@[simp] theorem State.setPc_mem (a : Word) : (s.setPc a).mem = s.mem := rfl
@[simp] theorem State.setPc_input (a : Word) : (s.setPc a).input = s.input := rfl
@[simp] theorem State.setPc_output (a : Word) : (s.setPc a).output = s.output := rfl
@[simp] theorem State.setPc_config (a : Word) : (s.setPc a).config = s.config := rfl
@[simp] theorem State.setPc_readReg (a : Word) (q : Reg) : (s.setPc a).readReg q = s.readReg q := rfl
@[simp] theorem State.setPc_byteAt (a : Word) (k : Nat) : (s.setPc a).byteAt k = s.byteAt k := rfl
@[simp] theorem State.setPc_inBounds (a : Word) (w : Word) (k : Nat) : (s.setPc a).inBounds w k = s.inBounds w k := rfl

/-! ### advance -/

@[simp] theorem State.advance_regs (n : Nat) : (s.advance n).regs = s.regs := rfl
@[simp] theorem State.advance_flags (n : Nat) : (s.advance n).flags = s.flags := rfl
@[simp] theorem State.advance_pc (n : Nat) : (s.advance n).pc = s.pc + BitVec.ofNat 32 n := rfl
@[simp] theorem State.advance_status (n : Nat) : (s.advance n).status = s.status := rfl
@[simp] theorem State.advance_mem (n : Nat) : (s.advance n).mem = s.mem := rfl
@[simp] theorem State.advance_input (n : Nat) : (s.advance n).input = s.input := rfl
@[simp] theorem State.advance_output (n : Nat) : (s.advance n).output = s.output := rfl
@[simp] theorem State.advance_config (n : Nat) : (s.advance n).config = s.config := rfl
@[simp] theorem State.advance_readReg (n : Nat) (q : Reg) : (s.advance n).readReg q = s.readReg q := rfl
@[simp] theorem State.advance_byteAt (n : Nat) (k : Nat) : (s.advance n).byteAt k = s.byteAt k := rfl
@[simp] theorem State.advance_inBounds (n : Nat) (w : Word) (k : Nat) : (s.advance n).inBounds w k = s.inBounds w k := rfl

/-! ### setStatus -/

@[simp] theorem State.setStatus_regs (st : Status) : (s.setStatus st).regs = s.regs := rfl
@[simp] theorem State.setStatus_flags (st : Status) : (s.setStatus st).flags = s.flags := rfl
@[simp] theorem State.setStatus_pc (st : Status) : (s.setStatus st).pc = s.pc := rfl
@[simp] theorem State.setStatus_status (st : Status) : (s.setStatus st).status = st := rfl
@[simp] theorem State.setStatus_mem (st : Status) : (s.setStatus st).mem = s.mem := rfl
@[simp] theorem State.setStatus_input (st : Status) : (s.setStatus st).input = s.input := rfl
@[simp] theorem State.setStatus_output (st : Status) : (s.setStatus st).output = s.output := rfl
@[simp] theorem State.setStatus_config (st : Status) : (s.setStatus st).config = s.config := rfl
@[simp] theorem State.setStatus_readReg (st : Status) (q : Reg) : (s.setStatus st).readReg q = s.readReg q := rfl
@[simp] theorem State.setStatus_byteAt (st : Status) (k : Nat) : (s.setStatus st).byteAt k = s.byteAt k := rfl
@[simp] theorem State.setStatus_inBounds (st : Status) (w : Word) (k : Nat) : (s.setStatus st).inBounds w k = s.inBounds w k := rfl

/-! ### setMem -/

@[simp] theorem State.setMem_regs (m : Memory) : (s.setMem m).regs = s.regs := rfl
@[simp] theorem State.setMem_flags (m : Memory) : (s.setMem m).flags = s.flags := rfl
@[simp] theorem State.setMem_pc (m : Memory) : (s.setMem m).pc = s.pc := rfl
@[simp] theorem State.setMem_status (m : Memory) : (s.setMem m).status = s.status := rfl
@[simp] theorem State.setMem_mem (m : Memory) : (s.setMem m).mem = m := rfl
@[simp] theorem State.setMem_input (m : Memory) : (s.setMem m).input = s.input := rfl
@[simp] theorem State.setMem_output (m : Memory) : (s.setMem m).output = s.output := rfl
@[simp] theorem State.setMem_config (m : Memory) : (s.setMem m).config = s.config := rfl
@[simp] theorem State.setMem_readReg (m : Memory) (q : Reg) : (s.setMem m).readReg q = s.readReg q := rfl
@[simp] theorem State.setMem_inBounds (m : Memory) (w : Word) (k : Nat) : (s.setMem m).inBounds w k = s.inBounds w k := rfl

/-! ### setInput -/

@[simp] theorem State.setInput_regs (i : InState) : (s.setInput i).regs = s.regs := rfl
@[simp] theorem State.setInput_flags (i : InState) : (s.setInput i).flags = s.flags := rfl
@[simp] theorem State.setInput_pc (i : InState) : (s.setInput i).pc = s.pc := rfl
@[simp] theorem State.setInput_status (i : InState) : (s.setInput i).status = s.status := rfl
@[simp] theorem State.setInput_mem (i : InState) : (s.setInput i).mem = s.mem := rfl
@[simp] theorem State.setInput_input (i : InState) : (s.setInput i).input = i := rfl
@[simp] theorem State.setInput_output (i : InState) : (s.setInput i).output = s.output := rfl
@[simp] theorem State.setInput_config (i : InState) : (s.setInput i).config = s.config := rfl
@[simp] theorem State.setInput_readReg (i : InState) (q : Reg) : (s.setInput i).readReg q = s.readReg q := rfl
@[simp] theorem State.setInput_byteAt (i : InState) (k : Nat) : (s.setInput i).byteAt k = s.byteAt k := rfl
@[simp] theorem State.setInput_inBounds (i : InState) (w : Word) (k : Nat) : (s.setInput i).inBounds w k = s.inBounds w k := rfl

/-! ### emit -/

@[simp] theorem State.emit_regs (e : OutEvent) : (s.emit e).regs = s.regs := rfl
@[simp] theorem State.emit_flags (e : OutEvent) : (s.emit e).flags = s.flags := rfl
@[simp] theorem State.emit_pc (e : OutEvent) : (s.emit e).pc = s.pc := rfl
@[simp] theorem State.emit_status (e : OutEvent) : (s.emit e).status = s.status := rfl
@[simp] theorem State.emit_mem (e : OutEvent) : (s.emit e).mem = s.mem := rfl
@[simp] theorem State.emit_input (e : OutEvent) : (s.emit e).input = s.input := rfl
@[simp] theorem State.emit_output (e : OutEvent) : (s.emit e).output = s.output ++ [e] := rfl
@[simp] theorem State.emit_config (e : OutEvent) : (s.emit e).config = s.config := rfl
@[simp] theorem State.emit_readReg (e : OutEvent) (q : Reg) : (s.emit e).readReg q = s.readReg q := rfl
@[simp] theorem State.emit_byteAt (e : OutEvent) (k : Nat) : (s.emit e).byteAt k = s.byteAt k := rfl
@[simp] theorem State.emit_inBounds (e : OutEvent) (w : Word) (k : Nat) : (s.emit e).inBounds w k = s.inBounds w k := rfl

/-! ### raise -/

@[simp] theorem State.raise_regs (e : Trap) : (s.raise e).regs = s.regs := rfl
@[simp] theorem State.raise_flags (e : Trap) : (s.raise e).flags = s.flags := rfl
@[simp] theorem State.raise_pc (e : Trap) : (s.raise e).pc = s.pc := rfl
@[simp] theorem State.raise_status (e : Trap) : (s.raise e).status = e.status s.config := rfl
@[simp] theorem State.raise_mem (e : Trap) : (s.raise e).mem = s.mem := rfl
@[simp] theorem State.raise_input (e : Trap) : (s.raise e).input = s.input := rfl
@[simp] theorem State.raise_output (e : Trap) : (s.raise e).output = s.output := rfl
@[simp] theorem State.raise_config (e : Trap) : (s.raise e).config = s.config := rfl
@[simp] theorem State.raise_readReg (e : Trap) (q : Reg) : (s.raise e).readReg q = s.readReg q := rfl
@[simp] theorem State.raise_byteAt (e : Trap) (k : Nat) : (s.raise e).byteAt k = s.byteAt k := rfl
@[simp] theorem State.raise_inBounds (e : Trap) (w : Word) (k : Nat) : (s.raise e).inBounds w k = s.inBounds w k := rfl

@[simp] theorem State.setMem_byteAt (m : Memory) (k : Nat) : (s.setMem m).byteAt k = m.read k := rfl

/-! ### The register file -/

@[simp] theorem RegFile.get_set_same (rf : RegFile) (r : Reg) (v : Word) : (rf.set r v).get r = v := by
  cases r <;> rfl

@[simp] theorem RegFile.get_set_ne (rf : RegFile) (r q : Reg) (v : Word) (h : q ≠ r) : (rf.set r v).get q = rf.get q := by
  cases r <;> cases q <;> first | rfl | exact absurd rfl h

@[simp] theorem State.readReg_writeReg_same (r : Reg) (v : Word) : (s.writeReg r v).readReg r = v :=
  s.regs.get_set_same r v

@[simp] theorem State.readReg_writeReg_ne (r q : Reg) (v : Word) (h : q ≠ r) : (s.writeReg r v).readReg q = s.readReg q :=
  s.regs.get_set_ne r q v h

/-- Two register files that read alike are equal. -/
theorem RegFile.ext_get (p q : RegFile) (h : ∀ r, p.get r = q.get r) : p = q := by
  cases p
  cases q
  simp only [RegFile.mk.injEq]
  exact ⟨h .A, h .C, h .D, h .B, h .SP, h .BP, h .SI, h .DI⟩

end Sys2Proof.Machine
end

