-- ==== Sys2Proof/Laws/Ops.lean ====
section
/-! SUPPORT. One lemma per shared operation of Machine/Ops.lean, Operands.lean and Alu.lean: all that it can do. Later proofs cite these
and do not unfold the operations. -/

namespace Sys2Proof.Machine

variable {s t : State}

/-! ### The bound check -/

/-- The signed bound check of 20_memory.md R51, read on unsigned addresses: the two agree since Capacity is below 2^31 (D25). -/
theorem State.inBounds_iff (a : Word) (n : Nat) : s.inBounds a n = true ↔ a.toNat + n ≤ s.config.capacity.val := by
  have hc := s.config.capacity.isLt
  have ha := a.isLt
  simp only [State.inBounds, decide_eq_true_eq, BitVec.toInt_eq_toNat_cond]
  split <;> omega

theorem State.inBounds_false_iff (a : Word) (n : Nat) : s.inBounds a n = false ↔ s.config.capacity.val < a.toNat + n := by
  have h := State.inBounds_iff (s := s) a n
  cases hb : s.inBounds a n <;> simp_all

/-! ### Loads and stores -/

theorem State.checkBounds_ok {a : Word} {n : Nat} {u : Unit} : s.checkBounds a n = .ok u ↔ s.inBounds a n = true := by
  unfold State.checkBounds
  cases s.inBounds a n <;> simp

theorem State.checkBounds_error {a : Word} {n : Nat} {e : Trap} :
    s.checkBounds a n = .error e ↔ s.inBounds a n = false ∧ e = .badAddress := by
  unfold State.checkBounds
  cases s.inBounds a n <;> simp [eq_comm]

theorem State.loadByte_ok {a : Word} {b : Byte} : s.loadByte a = .ok b ↔ s.inBounds a 1 = true ∧ b = s.byteAt a.toNat := by
  unfold State.loadByte
  cases s.inBounds a 1 <;> simp [eq_comm]

theorem State.loadByte_error {a : Word} {e : Trap} : s.loadByte a = .error e ↔ s.inBounds a 1 = false ∧ e = .badAddress := by
  unfold State.loadByte
  cases s.inBounds a 1 <;> simp [eq_comm]

theorem State.loadWord_ok {a w : Word} : s.loadWord a = .ok w ↔ s.inBounds a 4 = true ∧
    w = le32 (s.byteAt a.toNat) (s.byteAt (a.toNat + 1)) (s.byteAt (a.toNat + 2)) (s.byteAt (a.toNat + 3)) := by
  unfold State.loadWord
  cases s.inBounds a 4 <;> simp [eq_comm]

theorem State.loadWord_error {a : Word} {e : Trap} : s.loadWord a = .error e ↔ s.inBounds a 4 = false ∧ e = .badAddress := by
  unfold State.loadWord
  cases s.inBounds a 4 <;> simp [eq_comm]

theorem State.storeByte_ok {a : Word} {b : Byte} :
    s.storeByte a b = .ok t ↔ s.inBounds a 1 = true ∧ t = s.setMem (s.mem.writeBytes a.toNat [b]) := by
  unfold State.storeByte
  cases s.inBounds a 1 <;> simp [eq_comm]

theorem State.storeByte_error {a : Word} {b : Byte} {e : Trap} :
    s.storeByte a b = .error e ↔ s.inBounds a 1 = false ∧ e = .badAddress := by
  unfold State.storeByte
  cases s.inBounds a 1 <;> simp [eq_comm]

theorem State.storeWord_ok {a w : Word} :
    s.storeWord a w = .ok t ↔ s.inBounds a 4 = true ∧ t = s.setMem (s.mem.writeBytes a.toNat (le32Bytes w)) := by
  unfold State.storeWord
  cases s.inBounds a 4 <;> simp [eq_comm]

theorem State.storeWord_error {a w : Word} {e : Trap} :
    s.storeWord a w = .error e ↔ s.inBounds a 4 = false ∧ e = .badAddress := by
  unfold State.storeWord
  cases s.inBounds a 4 <;> simp [eq_comm]

theorem State.push_ok {v : Word} : s.push v = .ok t ↔ s.inBounds s.pushAddr 4 = true ∧
    t = (s.setMem (s.mem.writeBytes s.pushAddr.toNat (le32Bytes v))).writeReg .SP s.pushAddr := by
  unfold State.push State.storeWord
  cases s.inBounds s.pushAddr 4 <;> simp [bind, Except.bind, pure, Except.pure, eq_comm]

theorem State.push_error {v : Word} {e : Trap} :
    s.push v = .error e ↔ s.inBounds s.pushAddr 4 = false ∧ e = .badAddress := by
  unfold State.push State.storeWord
  cases s.inBounds s.pushAddr 4 <;> simp [bind, Except.bind, pure, Except.pure, eq_comm]

theorem State.pop_ok {v : Word} : s.pop = .ok (v, t) ↔
    s.loadWord (s.readReg .SP) = .ok v ∧ t = s.writeReg .SP (s.readReg .SP + 4) := by
  unfold State.pop
  cases s.loadWord (s.readReg .SP) <;> simp [bind, Except.bind, pure, Except.pure, eq_comm]

theorem State.pop_error {e : Trap} :
    s.pop = .error e ↔ s.inBounds (s.readReg .SP) 4 = false ∧ e = .badAddress := by
  rw [← State.loadWord_error]
  unfold State.pop
  cases s.loadWord (s.readReg .SP) <;> simp [bind, Except.bind, pure, Except.pure]

/-- Storing a byte keeps the canonical form and the bound on the cells. -/
theorem State.storeByte_mem (hm : s.mem.wf) (hb : ∀ c ∈ s.mem, c.1 < s.config.capacity.val) {a : Word} {b : Byte}
    (h : s.storeByte a b = .ok t) : t.mem.wf ∧ ∀ c ∈ t.mem, c.1 < s.config.capacity.val := by
  obtain ⟨hin, rfl⟩ := State.storeByte_ok.1 h
  have := (State.inBounds_iff a 1).1 hin
  exact ⟨Memory.wf_writeBytes _ hm _, Memory.bounded_writeBytes _ _ hb _ (.inr (by simpa using this))⟩

/-- Storing a word keeps the canonical form and the bound on the cells. -/
theorem State.storeWord_mem (hm : s.mem.wf) (hb : ∀ c ∈ s.mem, c.1 < s.config.capacity.val) {a w : Word}
    (h : s.storeWord a w = .ok t) : t.mem.wf ∧ ∀ c ∈ t.mem, c.1 < s.config.capacity.val := by
  obtain ⟨hin, rfl⟩ := State.storeWord_ok.1 h
  have := (State.inBounds_iff a 4).1 hin
  exact ⟨Memory.wf_writeBytes _ hm _, Memory.bounded_writeBytes _ _ hb _ (.inr (by simpa [le32Bytes] using this))⟩

/-! ### Register fields -/

/-- A field names a register exactly when it is below 8 (30_encoding.md R87). -/
theorem regOfField_isSome (f : RegField) : (regOfField f).isSome = namesRegister f := by
  revert f
  decide

theorem needReg_ok {f : RegField} {r : Reg} : needReg f = .ok r ↔ regOfField f = some r := by
  unfold needReg
  cases regOfField f <;> simp

theorem needReg_error {f : RegField} {e : Trap} : needReg f = .error e ↔ regOfField f = none ∧ e = .regFault := by
  unfold needReg
  cases regOfField f <;> simp [eq_comm]

theorem needNoReg_ok {f : RegField} {u : Unit} : needNoReg f = .ok u ↔ regOfField f = none := by
  unfold needNoReg
  cases regOfField f <;> simp

theorem needNoReg_error {f : RegField} {e : Trap} :
    needNoReg f = .error e ↔ (regOfField f).isSome = true ∧ e = .badAddress := by
  unfold needNoReg
  cases regOfField f <;> simp [eq_comm]

/-! ### The ALU -/

/-- What an ALU instruction with two registers does (43_alu.md R130). -/
theorem alu_ok {rA rB : RegField} {ra rb : Reg} (hA : regOfField rA = some ra) (hB : regOfField rB = some rb)
    (res : Word → Word → Word) (flags : Word → Word → Flags) (writes : Bool) :
    alu rA rB res flags writes s = .ok ((if writes then (s.setFlags (flags (s.readReg rb) (s.readReg ra))).writeReg rb
      (res (s.readReg rb) (s.readReg ra)) else s.setFlags (flags (s.readReg rb) (s.readReg ra))).advance 2) := by
  simp [alu, needReg, hA, hB, bind, Except.bind, pure, Except.pure]

/-- An ALU instruction raises nothing but the field fault. -/
theorem alu_error {rA rB : RegField} {res : Word → Word → Word} {flags : Word → Word → Flags} {writes : Bool} {e : Trap} :
    alu rA rB res flags writes s = .error e ↔ (regOfField rA = none ∨ regOfField rB = none) ∧ e = .regFault := by
  unfold alu needReg
  cases regOfField rA <;> cases regOfField rB <;> simp [bind, Except.bind, pure, Except.pure, eq_comm]

/-! ### The commit -/

/-- A commit always answers a next state: the rule's own, or the fault's. -/
theorem commit_cases {r : Except Trap State} (h : commit s r = .next t) :
    r = .ok t ∨ ∃ e, r = .error e ∧ t = s.raise e := by
  cases r with
  | ok u => exact .inl (by simpa [commit] using h)
  | error e => exact .inr ⟨e, rfl, by simpa [commit, eq_comm] using h⟩

@[simp] theorem commit_ok (u : State) : commit s (.ok u) = .next u := rfl

@[simp] theorem commit_error (e : Trap) : commit s (.error e) = .next (s.raise e) := rfl

theorem commit_isNext (r : Except Trap State) : ∃ t, commit s r = .next t := by
  cases r <;> exact ⟨_, rfl⟩

end Sys2Proof.Machine
end

