-- ==== Sys2Proof/Laws/Step.lean ====
section
/-! SUPPORT. What a fetch, an instruction and a step can answer: the case lemmas that proofs about steps begin with. -/

namespace Sys2Proof.Machine

variable {s t : State}

theorem Opcode.length_pos (op : Opcode) : 1 ≤ op.length := by
  cases op <;> decide

theorem State.inBounds_mono {a : Word} {m n : Nat} (hmn : m ≤ n) (h : s.inBounds a n = true) : s.inBounds a m = true := by
  rw [State.inBounds_iff] at h ⊢
  omega

/-- A fetch that answers an instruction (40_step.md R101 to R103). -/
theorem State.fetch_ok {i : Instr} : s.fetch = .ok i ↔ ∃ op, s.config.opcodes.opcodeOf (s.byteAt s.pc.toNat) = some op ∧
    s.inBounds s.pc op.length = true ∧ i = assemble op fun k => s.byteAt (s.pc.toNat + k) := by
  unfold State.fetch
  constructor
  · intro h
    split at h
    · split at h
      · cases h
      · split at h
        · cases h
          exact ⟨_, ‹_›, ‹_›, rfl⟩
        · cases h
    · cases h
  · rintro ⟨op, ho, hb, rfl⟩
    rw [if_pos (State.inBounds_mono (Opcode.length_pos op) hb)]
    simp only [ho, if_pos hb]

/-- A fetch that raises, with the reason (40_step.md R101 to R103). -/
theorem State.fetch_error {e : Trap} : s.fetch = .error e ↔
    (s.inBounds s.pc 1 = false ∧ e = .badAddress) ∨
    (s.inBounds s.pc 1 = true ∧ s.config.opcodes.opcodeOf (s.byteAt s.pc.toNat) = none ∧ e = .badInstruction) ∨
    (s.inBounds s.pc 1 = true ∧ e = .badAddress ∧
      ∃ op, s.config.opcodes.opcodeOf (s.byteAt s.pc.toNat) = some op ∧ s.inBounds s.pc op.length = false) := by
  unfold State.fetch
  cases hb : s.inBounds s.pc 1
  · simp [eq_comm (a := Trap.badAddress)]
  · cases ho : s.config.opcodes.opcodeOf (s.byteAt s.pc.toNat) with
    | none => simp [eq_comm (a := Trap.badInstruction)]
    | some op => cases hl : s.inBounds s.pc op.length <;> simp [hl, eq_comm (a := Trap.badAddress)]

/-- Every instruction answers a next state: no meaning stops. -/
theorem exec_isNext (i : Instr) (s : State) : ∃ t, exec i s = .next t := by
  cases i <;> first | exact commit_isNext _ | exact ⟨_, rfl⟩

/-- A step that answers a next state was taken by a running core: it ran the fetched instruction, or took the fault of its fetch. -/
theorem step_cases (h : step s = .next t) : s.status = .running ∧
    ((∃ i, s.fetch = .ok i ∧ exec i s = .next t) ∨ ∃ e, s.fetch = .error e ∧ t = s.raise e) := by
  unfold step at h
  split at h
  · refine ⟨‹_›, ?_⟩
    split at h
    · exact .inl ⟨_, ‹_›, h⟩
    · cases h
      exact .inr ⟨_, ‹_›, rfl⟩
  · cases h

/-- A running core runs the instruction it fetches. -/
theorem step_of_fetch_ok {i : Instr} (hr : s.status = .running) (hf : s.fetch = .ok i) : step s = exec i s := by
  simp only [step, hr, hf]

/-- A running core takes the fault of its fetch. -/
theorem step_of_fetch_error {e : Trap} (hr : s.status = .running) (hf : s.fetch = .error e) : step s = .next (s.raise e) := by
  simp only [step, hr, hf]

end Sys2Proof.Machine
end

