-- ==== Sys2Proof/Laws/Exec.lean ====
section
/-! SUPPORT. What an instruction that runs can do, said once: it raises and only the status changes, or it completes with the effect its
rule gives. Proofs about every instruction begin with `exec_cases`. -/

namespace Sys2Proof.Machine

/-- The effect of a completed ALU instruction (43_alu.md R130). -/
def AluCompleted (rA rB : RegField) (res : Word → Word → Word) (flags : Word → Word → Flags) (writes : Bool) (s t : State) : Prop :=
  ∃ ra rb, regOfField rA = some ra ∧ regOfField rB = some rb ∧
    t = (if writes then (s.setFlags (flags (s.readReg rb) (s.readReg ra))).writeReg rb (res (s.readReg rb) (s.readReg ra))
      else s.setFlags (flags (s.readReg rb) (s.readReg ra))).advance 2

/-- The effect of each instruction that completes. -/
def Completed (i : Instr) (s t : State) : Prop :=
  match i with
  | .nop => t = s.advance 1
  | .halt => t = s.setStatus .halted
  | .rrmovl rA rB => ∃ src dst, regOfField rA = some src ∧ regOfField rB = some dst ∧
      t = (s.writeReg dst (s.readReg src)).advance 2
  | .irmovl rA rB V => ∃ dst, regOfField rA = none ∧ regOfField rB = some dst ∧ t = (s.writeReg dst V).advance 6
  | .rmmovl rA rB V => ∃ src base u, regOfField rA = some src ∧ regOfField rB = some base ∧
      s.storeWord (s.ea base V) (s.readReg src) = .ok u ∧ t = u.advance 6
  | .mrmovl rA rB V => ∃ dst base w, regOfField rA = some dst ∧ regOfField rB = some base ∧
      s.loadWord (s.ea base V) = .ok w ∧ t = (s.writeReg dst w).advance 6
  | .addl rA rB => AluCompleted rA rB (fun b a => b + a) addFlags true s t
  | .subl rA rB => AluCompleted rA rB (fun b a => b - a) subFlags true s t
  | .andl rA rB => AluCompleted rA rB (fun b a => b &&& a) andFlags true s t
  | .xorl rA rB => AluCompleted rA rB (fun b a => b ^^^ a) xorFlags true s t
  | .mull rA rB => AluCompleted rA rB (fun b a => b * a) mulFlags true s t
  | .cmpl rA rB => AluCompleted rA rB (fun b a => b - a) subFlags false s t
  | .jmp dest => t = s.setPc dest
  | .jle dest => t = s.jumpIf (condLE s.flags) dest
  | .jl dest => t = s.jumpIf (condL s.flags) dest
  | .je dest => t = s.jumpIf (condE s.flags) dest
  | .jne dest => t = s.jumpIf (condNE s.flags) dest
  | .jge dest => t = s.jumpIf (condGE s.flags) dest
  | .jg dest => t = s.jumpIf (condG s.flags) dest
  | .call dest => ∃ u, s.push (s.pc + 5) = .ok u ∧ t = u.setPc dest
  | .ret => ∃ v u, s.pop = .ok (v, u) ∧ t = u.setPc v
  | .pushl rA _ => ∃ r u, regOfField rA = some r ∧ s.push (s.pushValue r) = .ok u ∧ t = u.advance 2
  | .popl rA _ => ∃ r v u, regOfField rA = some r ∧ s.pop = .ok (v, u) ∧ t = (u.popInto r v).advance 2
  | .readb rA _ V => ∃ base, regOfField rA = some base ∧ s.inBounds (s.ea base V) 1 = true ∧
      ((∃ b input u, s.input.readByte = some (b, input) ∧ s.storeByte (s.ea base V) b = .ok u ∧
          t = ((u.setInput input).setZF false).advance 6) ∨
        (s.input.readByte = none ∧ t = (s.setZF true).advance 6))
  | .readl rA _ V => ∃ base, regOfField rA = some base ∧ s.inBounds (s.ea base V) 4 = true ∧
      ((∃ w input u, s.input.readLong = some (w, input) ∧ s.storeWord (s.ea base V) w = .ok u ∧
          t = ((u.setInput input).setZF false).advance 6) ∨
        (s.input.readLong = none ∧ t = (s.setZF true).advance 6))
  | .writeb rA _ V => ∃ base b, regOfField rA = some base ∧ s.loadByte (s.ea base V) = .ok b ∧
      t = (s.emit (.outByte b)).advance 6
  | .writel rA _ V => ∃ base w, regOfField rA = some base ∧ s.loadWord (s.ea base V) = .ok w ∧
      t = (s.emit (.outLong w)).advance 6
  | .movsbl rA rB V => ∃ ra rb b, regOfField rA = some ra ∧ regOfField rB = some rb ∧
      s.loadByte (s.ea (movsblRoles s.config.movsblFieldOrder ra rb).1 V) = .ok b ∧
      t = (s.writeReg (movsblRoles s.config.movsblFieldOrder ra rb).2 (sext32 b)).advance 6

/-! ### Peeling a rule apart -/

variable {α β : Type}

theorem bind_ok {x : Except Trap α} {f : α → Except Trap β} {b : β} (h : (x >>= f) = .ok b) :
    ∃ a, x = .ok a ∧ f a = .ok b := by
  cases x with
  | error e => cases h
  | ok a => exact ⟨a, rfl, h⟩

/-- A rule that raises no BadInstruction. -/
def Legal (x : Except Trap α) : Prop := x ≠ .error .badInstruction

theorem Legal.ok (a : α) : Legal (.ok a) := nofun

theorem Legal.bind {x : Except Trap α} {f : α → Except Trap β} (hx : Legal x) (hf : ∀ a, Legal (f a)) : Legal (x >>= f) := by
  cases x with
  | error e => exact fun h => hx (by cases h; rfl)
  | ok a => exact hf a

variable (s : State)

theorem Legal.needReg (f : RegField) : Legal (needReg f) := fun h => nomatch (needReg_error.1 h).2

theorem Legal.needNoReg (f : RegField) : Legal (needNoReg f) := fun h => nomatch (needNoReg_error.1 h).2

theorem Legal.checkBounds (a : Word) (n : Nat) : Legal (s.checkBounds a n) := fun h => nomatch (State.checkBounds_error.1 h).2

theorem Legal.loadByte (a : Word) : Legal (s.loadByte a) := fun h => nomatch (State.loadByte_error.1 h).2

theorem Legal.loadWord (a : Word) : Legal (s.loadWord a) := fun h => nomatch (State.loadWord_error.1 h).2

theorem Legal.storeByte (a : Word) (b : Byte) : Legal (s.storeByte a b) := fun h => nomatch (State.storeByte_error.1 h).2

theorem Legal.storeWord (a w : Word) : Legal (s.storeWord a w) := fun h => nomatch (State.storeWord_error.1 h).2

theorem Legal.push (v : Word) : Legal (s.push v) := fun h => nomatch (State.push_error.1 h).2

theorem Legal.pop : Legal s.pop := fun h => nomatch (State.pop_error.1 h).2

theorem Legal.alu (rA rB : RegField) (res : Word → Word → Word) (flags : Word → Word → Flags) (writes : Bool) :
    Legal (alu rA rB res flags writes s) := fun h => nomatch (alu_error.1 h).2

variable {s} {t : State}

/-- A committed rule that raises no BadInstruction takes some other fault or completes. -/
theorem commit_legal {r : Except Trap State} {P : Prop} (hl : Legal r) (hok : r = .ok t → P) (h : commit s r = .next t) :
    (∃ e, e ≠ .badInstruction ∧ t = s.raise e) ∨ P := by
  rcases commit_cases h with hr | ⟨e, hr, ht⟩
  · exact .inr (hok hr)
  · exact .inl ⟨e, fun he => hl (he ▸ hr), ht⟩

theorem alu_completed {rA rB : RegField} {res : Word → Word → Word} {flags : Word → Word → Flags} {writes : Bool}
    (h : alu rA rB res flags writes s = .ok t) : AluCompleted rA rB res flags writes s t := by
  obtain ⟨ra, ha, h'⟩ := bind_ok h
  obtain ⟨rb, hb, -⟩ := bind_ok h'
  have ha := needReg_ok.1 ha
  have hb := needReg_ok.1 hb
  rw [alu_ok ha hb] at h
  cases h
  exact ⟨ra, rb, ha, hb, rfl⟩

/-- What any instruction can do. No instruction raises BadInstruction: that is the fetch's (60_exceptions.md R201). -/
theorem exec_cases {i : Instr} (h : exec i s = .next t) :
    (∃ e, e ≠ .badInstruction ∧ t = s.raise e) ∨ Completed i s t := by
  cases i with
  | nop | halt | jmp | jle | jl | je | jne | jge | jg => exact commit_legal (Legal.ok _) (fun h => by cases h; rfl) h
  | addl | subl | andl | xorl | mull | cmpl => exact commit_legal (Legal.alu _ _ _ _ _ _) alu_completed h
  | rrmovl rA rB =>
    refine commit_legal ((Legal.needReg _).bind fun _ => (Legal.needReg _).bind fun _ => Legal.ok _) (fun h => ?_) h
    obtain ⟨src, ha, h⟩ := bind_ok h
    obtain ⟨dst, hb, h⟩ := bind_ok h
    cases h
    exact ⟨src, dst, needReg_ok.1 ha, needReg_ok.1 hb, rfl⟩
  | irmovl rA rB V =>
    refine commit_legal ((Legal.needNoReg _).bind fun _ => (Legal.needReg _).bind fun _ => Legal.ok _) (fun h => ?_) h
    obtain ⟨_, ha, h⟩ := bind_ok h
    obtain ⟨dst, hb, h⟩ := bind_ok h
    cases h
    exact ⟨dst, needNoReg_ok.1 ha, needReg_ok.1 hb, rfl⟩
  | rmmovl rA rB V =>
    refine commit_legal ((Legal.needReg _).bind fun _ => (Legal.needReg _).bind fun _ => (Legal.storeWord _ _ _).bind fun _ =>
      Legal.ok _) (fun h => ?_) h
    obtain ⟨src, ha, h⟩ := bind_ok h
    obtain ⟨base, hb, h⟩ := bind_ok h
    obtain ⟨u, hu, h⟩ := bind_ok h
    cases h
    exact ⟨src, base, u, needReg_ok.1 ha, needReg_ok.1 hb, hu, rfl⟩
  | mrmovl rA rB V =>
    refine commit_legal ((Legal.needReg _).bind fun _ => (Legal.needReg _).bind fun _ => (Legal.loadWord _ _).bind fun _ =>
      Legal.ok _) (fun h => ?_) h
    obtain ⟨dst, ha, h⟩ := bind_ok h
    obtain ⟨base, hb, h⟩ := bind_ok h
    obtain ⟨w, hw, h⟩ := bind_ok h
    cases h
    exact ⟨dst, base, w, needReg_ok.1 ha, needReg_ok.1 hb, hw, rfl⟩
  | call dest =>
    refine commit_legal ((Legal.push _ _).bind fun _ => Legal.ok _) (fun h => ?_) h
    obtain ⟨u, hu, h⟩ := bind_ok h
    cases h
    exact ⟨u, hu, rfl⟩
  | ret =>
    refine commit_legal ((Legal.pop _).bind fun _ => Legal.ok _) (fun h => ?_) h
    obtain ⟨⟨v, u⟩, hu, h⟩ := bind_ok h
    cases h
    exact ⟨v, u, hu, rfl⟩
  | pushl rA rB =>
    refine commit_legal ((Legal.needReg _).bind fun _ => (Legal.push _ _).bind fun _ => Legal.ok _) (fun h => ?_) h
    obtain ⟨r, ha, h⟩ := bind_ok h
    obtain ⟨u, hu, h⟩ := bind_ok h
    cases h
    exact ⟨r, u, needReg_ok.1 ha, hu, rfl⟩
  | popl rA rB =>
    refine commit_legal ((Legal.needReg _).bind fun _ => (Legal.pop _).bind fun _ => Legal.ok _) (fun h => ?_) h
    obtain ⟨r, ha, h⟩ := bind_ok h
    obtain ⟨⟨v, u⟩, hu, h⟩ := bind_ok h
    cases h
    exact ⟨r, v, u, needReg_ok.1 ha, hu, rfl⟩
  | readb rA rB V =>
    refine commit_legal ((Legal.needReg _).bind fun _ => (Legal.checkBounds _ _ _).bind fun _ => ?_) (fun h => ?_) h
    · cases s.input.readByte with
      | none => exact Legal.ok _
      | some p => exact (Legal.storeByte _ _ _).bind fun _ => Legal.ok _
    · obtain ⟨base, ha, h⟩ := bind_ok h
      obtain ⟨_, hc, h⟩ := bind_ok h
      refine ⟨base, needReg_ok.1 ha, State.checkBounds_ok.1 hc, ?_⟩
      cases hi : s.input.readByte with
      | none =>
        rw [hi] at h
        cases h
        exact .inr ⟨rfl, rfl⟩
      | some p =>
        rw [hi] at h
        obtain ⟨u, hu, h⟩ := bind_ok h
        cases h
        exact .inl ⟨p.1, p.2, u, rfl, hu, rfl⟩
  | readl rA rB V =>
    refine commit_legal ((Legal.needReg _).bind fun _ => (Legal.checkBounds _ _ _).bind fun _ => ?_) (fun h => ?_) h
    · cases s.input.readLong with
      | none => exact Legal.ok _
      | some p => exact (Legal.storeWord _ _ _).bind fun _ => Legal.ok _
    · obtain ⟨base, ha, h⟩ := bind_ok h
      obtain ⟨_, hc, h⟩ := bind_ok h
      refine ⟨base, needReg_ok.1 ha, State.checkBounds_ok.1 hc, ?_⟩
      cases hi : s.input.readLong with
      | none =>
        rw [hi] at h
        cases h
        exact .inr ⟨rfl, rfl⟩
      | some p =>
        rw [hi] at h
        obtain ⟨u, hu, h⟩ := bind_ok h
        cases h
        exact .inl ⟨p.1, p.2, u, rfl, hu, rfl⟩
  | writeb rA rB V =>
    refine commit_legal ((Legal.needReg _).bind fun _ => (Legal.loadByte _ _).bind fun _ => Legal.ok _) (fun h => ?_) h
    obtain ⟨base, ha, h⟩ := bind_ok h
    obtain ⟨b, hb, h⟩ := bind_ok h
    cases h
    exact ⟨base, b, needReg_ok.1 ha, hb, rfl⟩
  | writel rA rB V =>
    refine commit_legal ((Legal.needReg _).bind fun _ => (Legal.loadWord _ _).bind fun _ => Legal.ok _) (fun h => ?_) h
    obtain ⟨base, ha, h⟩ := bind_ok h
    obtain ⟨w, hw, h⟩ := bind_ok h
    cases h
    exact ⟨base, w, needReg_ok.1 ha, hw, rfl⟩
  | movsbl rA rB V =>
    refine commit_legal ((Legal.needReg _).bind fun _ => (Legal.needReg _).bind fun _ => (Legal.loadByte _ _).bind fun _ =>
      Legal.ok _) (fun h => ?_) h
    obtain ⟨ra, ha, h⟩ := bind_ok h
    obtain ⟨rb, hb, h⟩ := bind_ok h
    obtain ⟨b, hl, h⟩ := bind_ok h
    cases h
    exact ⟨ra, rb, b, needReg_ok.1 ha, needReg_ok.1 hb, hl, rfl⟩

end Sys2Proof.Machine
end

