-- ==== Sys2Proof/Laws/HostIn.lean ====
section
/-! SUPPORT. Why `InState` holds any host (log 6). A host (46_io.md R170) has a state of any type; where it stands depends only on the
successful reads made before, so `InState.host`, whose answers are an arbitrary function of those, runs as it does, for any number of
reads. The first `n` answers of a host are also an `InState` written out in full. -/

namespace Sys2Proof.Machine

variable {σ : Type} (readByte : σ → Option (Byte × σ)) (readLong : σ → Option (Word × σ))

/-! ### A host without end -/

/-- Where a host that starts at `x` stands after the successful reads `past`, the latest first; none if one of them would fail. -/
def hostAt (x : σ) : List ReadKind → Option σ
  | [] => some x
  | .byte :: past => (hostAt x past).bind fun y => (readByte y).map Prod.snd
  | .long :: past => (hostAt x past).bind fun y => (readLong y).map Prod.snd

/-- The host `id` of the model answers as the host that starts at `x`. -/
def AnswersAs (id : Nat) (x : σ) : Prop :=
  ∀ past y, hostAt readByte readLong x past = some y →
    Config.hostByte id past = (readByte y).map Prod.fst ∧ Config.hostLong id past = (readLong y).map Prod.fst

variable {readByte readLong}

/-- The answers of any host are functions of the successful reads made before, as `Config.hostByte` and `Config.hostLong` are. -/
theorem answers_of_past (x : σ) : ∃ (byteAfter : List ReadKind → Option Byte) (longAfter : List ReadKind → Option Word),
    ∀ past y, hostAt readByte readLong x past = some y →
      byteAfter past = (readByte y).map Prod.fst ∧ longAfter past = (readLong y).map Prod.fst := by
  refine ⟨fun past => (hostAt readByte readLong x past).bind fun y => (readByte y).map Prod.fst,
    fun past => (hostAt readByte readLong x past).bind fun y => (readLong y).map Prod.fst, fun past y h => ?_⟩
  simp [h]

/-- A byte read of the model's host answers as the host does, and both stand at corresponding positions after it. -/
theorem InState.host_readByte {id : Nat} {x y : σ} {past : List ReadKind} (ha : AnswersAs readByte readLong id x)
    (h : hostAt readByte readLong x past = some y) :
    (InState.host id past).readByte = (readByte y).map (fun p => (p.1, .host id (.byte :: past))) ∧
      ∀ b z, readByte y = some (b, z) → hostAt readByte readLong x (.byte :: past) = some z := by
  refine ⟨?_, fun b z hz => by simp [hostAt, h, hz]⟩
  simp [InState.readByte, (ha past y h).1, Function.comp_def]

/-- A long read of the model's host answers as the host does, and both stand at corresponding positions after it. -/
theorem InState.host_readLong {id : Nat} {x y : σ} {past : List ReadKind} (ha : AnswersAs readByte readLong id x)
    (h : hostAt readByte readLong x past = some y) :
    (InState.host id past).readLong = (readLong y).map (fun p => (p.1, .host id (.long :: past))) ∧
      ∀ w z, readLong y = some (w, z) → hostAt readByte readLong x (.long :: past) = some z := by
  refine ⟨?_, fun w z hz => by simp [hostAt, h, hz]⟩
  simp [InState.readLong, (ha past y h).2, Function.comp_def]

/-! ### The first answers of a host, written out -/

/-- The first `n` rounds of answers of a host as an `InState`. -/
def InState.ofHost {σ : Type} (readByte : σ → Option (Byte × σ)) (readLong : σ → Option (Word × σ)) : Nat → σ → InState
  | 0, _ => .eof
  | n + 1, x =>
    match readByte x, readLong x with
    | none, none => .eof
    | some (b, y), none => .byteOnly b (ofHost readByte readLong n y)
    | none, some (w, z) => .longOnly w (ofHost readByte readLong n z)
    | some (b, y), some (w, z) => .either b (ofHost readByte readLong n y) w (ofHost readByte readLong n z)

/-- A byte read of the tree answers as the host does, and goes on as the host goes on. -/
theorem InState.ofHost_readByte (n : Nat) (x : σ) : (InState.ofHost readByte readLong (n + 1) x).readByte =
    (readByte x).map fun p => (p.1, InState.ofHost readByte readLong n p.2) := by
  rw [InState.ofHost]
  cases readByte x <;> cases readLong x <;> rfl

/-- A long read of the tree answers as the host does, and goes on as the host goes on. -/
theorem InState.ofHost_readLong (n : Nat) (x : σ) : (InState.ofHost readByte readLong (n + 1) x).readLong =
    (readLong x).map fun p => (p.1, InState.ofHost readByte readLong n p.2) := by
  rw [InState.ofHost]
  cases readByte x <;> cases readLong x <;> rfl

end Sys2Proof.Machine
end

