-- ==== Sys2Proof/Laws/Loader.lean ====
section
/-! SUPPORT. What the loader's readers of an argument can answer when they fail: always an error about that argument. -/

namespace Sys2Proof.Machine

variable {cs : List Char} {e : LoadError}

theorem hexValue_error (h : hexValue cs = .error e) : e = .badHex cs := by
  unfold hexValue at h
  split at h
  · split at h <;> cases h
    rfl
  · cases h
    rfl

theorem hexBytes_error (h : hexBytes cs = .error e) : e = .oddText cs ∨ e = .badHex cs := by
  unfold hexBytes at h
  split at h
  · cases h
    exact .inl rfl
  · split at h <;> cases h
    exact .inr rfl

theorem decValue_error (h : decValue cs = .error e) : e = .badDecimal cs ∨ e = .longRange cs := by
  unfold decValue at h
  simp only at h
  split at h
  · cases h
    exact .inl rfl
  · split at h <;> cases h
    exact .inr rfl

end Sys2Proof.Machine
end

