-- ==== Sys2Proof/Laws/PerInstr.lean ====
section
/-! SUPPORT. Facts about every instruction as syntax, one lemma per constructor. -/

namespace Sys2Proof.Laws.Encoding

/-- The encoding of an instruction is as long as its opcode says and begins with the opcode's byte, and reading its operand bytes back
gives the instruction (30_encoding.md R80 to R86). -/
def Statement (i : Instr) : Prop :=
  ∀ m : OpcodeMap, ∀ rest : List Byte, (encode m i).length = i.opcode.length ∧ (encode m i).head? = some (m.byteOf i.opcode) ∧
    assemble i.opcode (fun k => (encode m i ++ rest).getD k 0) = i

theorem nop : Statement .nop :=
  fun _ _ => ⟨rfl, rfl, rfl⟩

theorem halt : Statement .halt :=
  fun _ _ => ⟨rfl, rfl, rfl⟩

theorem rrmovl (rA rB : RegField) : Statement (.rrmovl rA rB) :=
  fun _ _ => ⟨rfl, rfl, congrArg₂ Instr.rrmovl (regFieldA_regByte rA rB) (regFieldB_regByte rA rB)⟩

theorem irmovl (rA rB : RegField) (V : Word) : Statement (.irmovl rA rB V) :=
  fun _ _ => ⟨rfl, rfl, by
    show Instr.irmovl _ _ _ = _
    exact congr (congrArg₂ Instr.irmovl (regFieldA_regByte rA rB) (regFieldB_regByte rA rB)) (le32_extract V)⟩

theorem rmmovl (rA rB : RegField) (V : Word) : Statement (.rmmovl rA rB V) :=
  fun _ _ => ⟨rfl, rfl, by
    show Instr.rmmovl _ _ _ = _
    exact congr (congrArg₂ Instr.rmmovl (regFieldA_regByte rA rB) (regFieldB_regByte rA rB)) (le32_extract V)⟩

theorem mrmovl (rA rB : RegField) (V : Word) : Statement (.mrmovl rA rB V) :=
  fun _ _ => ⟨rfl, rfl, by
    show Instr.mrmovl _ _ _ = _
    exact congr (congrArg₂ Instr.mrmovl (regFieldA_regByte rA rB) (regFieldB_regByte rA rB)) (le32_extract V)⟩

theorem addl (rA rB : RegField) : Statement (.addl rA rB) :=
  fun _ _ => ⟨rfl, rfl, congrArg₂ Instr.addl (regFieldA_regByte rA rB) (regFieldB_regByte rA rB)⟩

theorem subl (rA rB : RegField) : Statement (.subl rA rB) :=
  fun _ _ => ⟨rfl, rfl, congrArg₂ Instr.subl (regFieldA_regByte rA rB) (regFieldB_regByte rA rB)⟩

theorem andl (rA rB : RegField) : Statement (.andl rA rB) :=
  fun _ _ => ⟨rfl, rfl, congrArg₂ Instr.andl (regFieldA_regByte rA rB) (regFieldB_regByte rA rB)⟩

theorem xorl (rA rB : RegField) : Statement (.xorl rA rB) :=
  fun _ _ => ⟨rfl, rfl, congrArg₂ Instr.xorl (regFieldA_regByte rA rB) (regFieldB_regByte rA rB)⟩

theorem mull (rA rB : RegField) : Statement (.mull rA rB) :=
  fun _ _ => ⟨rfl, rfl, congrArg₂ Instr.mull (regFieldA_regByte rA rB) (regFieldB_regByte rA rB)⟩

theorem cmpl (rA rB : RegField) : Statement (.cmpl rA rB) :=
  fun _ _ => ⟨rfl, rfl, congrArg₂ Instr.cmpl (regFieldA_regByte rA rB) (regFieldB_regByte rA rB)⟩

theorem jmp (dest : Word) : Statement (.jmp dest) :=
  fun _ _ => ⟨rfl, rfl, congrArg Instr.jmp (le32_extract dest)⟩

theorem jle (dest : Word) : Statement (.jle dest) :=
  fun _ _ => ⟨rfl, rfl, congrArg Instr.jle (le32_extract dest)⟩

theorem jl (dest : Word) : Statement (.jl dest) :=
  fun _ _ => ⟨rfl, rfl, congrArg Instr.jl (le32_extract dest)⟩

theorem je (dest : Word) : Statement (.je dest) :=
  fun _ _ => ⟨rfl, rfl, congrArg Instr.je (le32_extract dest)⟩

theorem jne (dest : Word) : Statement (.jne dest) :=
  fun _ _ => ⟨rfl, rfl, congrArg Instr.jne (le32_extract dest)⟩

theorem jge (dest : Word) : Statement (.jge dest) :=
  fun _ _ => ⟨rfl, rfl, congrArg Instr.jge (le32_extract dest)⟩

theorem jg (dest : Word) : Statement (.jg dest) :=
  fun _ _ => ⟨rfl, rfl, congrArg Instr.jg (le32_extract dest)⟩

theorem call (dest : Word) : Statement (.call dest) :=
  fun _ _ => ⟨rfl, rfl, congrArg Instr.call (le32_extract dest)⟩

theorem ret : Statement .ret :=
  fun _ _ => ⟨rfl, rfl, rfl⟩

theorem pushl (rA rB : RegField) : Statement (.pushl rA rB) :=
  fun _ _ => ⟨rfl, rfl, congrArg₂ Instr.pushl (regFieldA_regByte rA rB) (regFieldB_regByte rA rB)⟩

theorem popl (rA rB : RegField) : Statement (.popl rA rB) :=
  fun _ _ => ⟨rfl, rfl, congrArg₂ Instr.popl (regFieldA_regByte rA rB) (regFieldB_regByte rA rB)⟩

theorem readb (rA rB : RegField) (V : Word) : Statement (.readb rA rB V) :=
  fun _ _ => ⟨rfl, rfl, by
    show Instr.readb _ _ _ = _
    exact congr (congrArg₂ Instr.readb (regFieldA_regByte rA rB) (regFieldB_regByte rA rB)) (le32_extract V)⟩

theorem readl (rA rB : RegField) (V : Word) : Statement (.readl rA rB V) :=
  fun _ _ => ⟨rfl, rfl, by
    show Instr.readl _ _ _ = _
    exact congr (congrArg₂ Instr.readl (regFieldA_regByte rA rB) (regFieldB_regByte rA rB)) (le32_extract V)⟩

theorem writeb (rA rB : RegField) (V : Word) : Statement (.writeb rA rB V) :=
  fun _ _ => ⟨rfl, rfl, by
    show Instr.writeb _ _ _ = _
    exact congr (congrArg₂ Instr.writeb (regFieldA_regByte rA rB) (regFieldB_regByte rA rB)) (le32_extract V)⟩

theorem writel (rA rB : RegField) (V : Word) : Statement (.writel rA rB V) :=
  fun _ _ => ⟨rfl, rfl, by
    show Instr.writel _ _ _ = _
    exact congr (congrArg₂ Instr.writel (regFieldA_regByte rA rB) (regFieldB_regByte rA rB)) (le32_extract V)⟩

theorem movsbl (rA rB : RegField) (V : Word) : Statement (.movsbl rA rB V) :=
  fun _ _ => ⟨rfl, rfl, by
    show Instr.movsbl _ _ _ = _
    exact congr (congrArg₂ Instr.movsbl (regFieldA_regByte rA rB) (regFieldB_regByte rA rB)) (le32_extract V)⟩

end Sys2Proof.Laws.Encoding
end

