-- ==== Sys2Proof/Tests/Slice0.lean ====
section
/-! SUPPORT. The model's own tests. Expected results are the vectors of spec/95_test_vectors.md (named beside each test), or hand
computation from the rules where no vector fits. The second half gives, for every statement of Obligations.lean that has hypotheses,
a concrete state and operands that meet them. -/

namespace Sys2Proof.Tests

open Sys2Proof Sys2Proof.Machine

/-! ### Helpers -/

/-- The launch of 95_test_vectors.md: Capacity 0x100, the bytes given from address 0 on, everything else as in the reference. -/
def boot (code : List Byte) : State :=
  State.launch { referenceLaunch with
    config := { referenceConfig with capacity := 256 }
    image := Memory.writeBytes [] 0 code }

/-- As `boot`, with another capacity and the bytes at the entry. -/
def bootAt (capacity : Capacity) (entry : Word) (code : List Byte) : State :=
  State.launch { referenceLaunch with
    config := { referenceConfig with capacity := capacity }
    entry := entry
    image := Memory.writeBytes [] entry.toNat code }

def withBytes (s : State) (a : Nat) (bytes : List Byte) : State := s.setMem (s.mem.writeBytes a bytes)

def withConfig (s : State) (f : Config → Config) : State := { s with config := f s.config }

/-- The four bytes from `a` on, lowest first. -/
def bytes4 (s : State) (a : Nat) : List Byte := [s.byteAt a, s.byteAt (a + 1), s.byteAt (a + 2), s.byteAt (a + 3)]

def flagBits (s : State) : Bool × Bool × Bool := (s.flags.OF, s.flags.ZF, s.flags.SF)

/-- The outcome is a next state with the property. -/
def nextIs (o : Host.Outcome State Fault Refusal) (p : State → Bool) : Bool :=
  match o with
  | .next t => p t
  | .fault _ => false
  | .refused _ => false

/-- The outcome is the state itself with this status. -/
def endsIn (o : Host.Outcome State Fault Refusal) (s : State) (st : Status) : Bool :=
  nextIs o fun t => decide (t = s.setStatus st)

def isOk {ε α : Type} (x : Except ε α) (p : α → Bool) : Bool :=
  match x with
  | .ok a => p a
  | .error _ => false

def isError {ε α : Type} (x : Except ε α) (p : ε → Bool) : Bool :=
  match x with
  | .ok _ => false
  | .error e => p e

/-! ### WellFormed refuses an ill-formed term for each check (40_step.md R104) -/

theorem test_wf_needs_rA : (Instr.addl 8 0).wellFormed = false := by decide

theorem test_wf_needs_rB : (Instr.rrmovl 0 15).wellFormed = false := by decide

theorem test_wf_irmovl_rA_names_none : (Instr.irmovl 7 0 1).wellFormed = false := by decide

theorem test_wf_irmovl_needs_rB : (Instr.irmovl 15 8 1).wellFormed = false := by decide

theorem test_wf_memory_needs_base : (Instr.mrmovl 0 9 4).wellFormed = false := by decide

theorem test_wf_stack_needs_rA : (Instr.pushl 8 0).wellFormed = false := by decide

theorem test_wf_io_needs_rA : (Instr.readb 15 0 0).wellFormed = false := by decide

theorem test_wf_unused_nibble_is_free : (Instr.popl 0 15).wellFormed = true ∧ (Instr.writel 7 0 0).wellFormed = true := by decide

/-! ### Decoding: words written out byte by byte from 30_encoding.md R82 to R86 -/

theorem test_decode_nop_halt_ret : decodeTableWord 8 0x00 = some .nop ∧ decodeTableWord 8 0x10 = some .halt ∧
    decodeTableWord 8 0x90 = some .ret := by decide

/-- `20 03`. -/
theorem test_decode_rrmovl : decodeTableWord 16 0x0320 = some (.rrmovl 0 3) := by decide

/-- `30 f5 00 00 00 80`. -/
theorem test_decode_irmovl : decodeTableWord 48 0x80000000F530 = some (.irmovl 15 5 0x80000000) := by decide

/-- `40 03 04 00 00 00` and `50 14 44 33 22 11`. -/
theorem test_decode_rmmovl_mrmovl : decodeTableWord 48 0x000000040340 = some (.rmmovl 0 3 4) ∧
    decodeTableWord 48 0x112233441450 = some (.mrmovl 1 4 0x11223344) := by decide

/-- `6f 12` for f = 0 to 5. -/
theorem test_decode_alu : [0x1260, 0x1261, 0x1262, 0x1263, 0x1264, 0x1265].map (decodeTableWord 16) =
    [some (.addl 1 2), some (.subl 1 2), some (.andl 1 2), some (.xorl 1 2), some (.mull 1 2), some (.cmpl 1 2)] := by decide

/-- `7f 44 33 22 11` for f = 0 to 6. -/
theorem test_decode_jumps :
    [0x1122334470, 0x1122334471, 0x1122334472, 0x1122334473, 0x1122334474, 0x1122334475, 0x1122334476].map (decodeTableWord 40) =
    [some (.jmp 0x11223344), some (.jle 0x11223344), some (.jl 0x11223344), some (.je 0x11223344), some (.jne 0x11223344),
      some (.jge 0x11223344), some (.jg 0x11223344)] := by decide

/-- `80 40 00 00 00`, `a0 4f` and `b0 13`. -/
theorem test_decode_stack : decodeTableWord 40 0x0000004080 = some (.call 0x40) ∧ decodeTableWord 16 0x4FA0 = some (.pushl 4 15) ∧
    decodeTableWord 16 0x13B0 = some (.popl 1 3) := by decide

/-- `c0 6f …`, `c1 0f …`, `d0 6f …` and `d1 7f …`. -/
theorem test_decode_io : decodeTableWord 48 0x000000406FC0 = some (.readb 6 15 0x40) ∧
    decodeTableWord 48 0x000000400FC1 = some (.readl 0 15 0x40) ∧ decodeTableWord 48 0x000000406FD0 = some (.writeb 6 15 0x40) ∧
    decodeTableWord 48 0x000000407FD1 = some (.writel 7 15 0x40) := by decide

/-- `e0 72 44 00 00 00`. -/
theorem test_decode_movsbl : decodeTableWord 48 0x0000004472E0 = some (.movsbl 7 2 0x44) := by decide

/-- The first byte of each run of illegal bytes in 30_encoding.md R91. -/
theorem test_decode_illegal : [0x01, 0x11, 0x21, 0x31, 0x41, 0x51, 0x66, 0x77, 0x81, 0x91, 0xA1, 0xB1, 0xC2, 0xD2, 0xE1].all
    (fun b => decide (decodeTableWord 8 b = none)) = true := by decide

/-- The encoder, on E1's bytes. -/
theorem test_encode_irmovl : encode OpcodeMap.reference (.irmovl 15 5 0x80) = [0x30, 0xF5, 0x80, 0x00, 0x00, 0x00] := by decide

/-! ### The first instruction after reset -/

theorem test_reset_runs_placed_word : nextIs (step (State.reset.withFetchWord 48 0x80000000F530))
    (fun t => t.readReg .BP == 0x80000000 && t.pc == 6) = true := by decide

theorem test_reset_runs_placed_jump : nextIs (step (State.reset.withFetchWord 40 0x1122334470)) (fun t => t.pc == 0x11223344) = true := by
  decide

/-! ### NOP, HALT -/

/-- P8's first step. -/
theorem test_nop : nextIs (step (boot [0x00])) (fun t => decide (t = (boot [0x00]).setPc 1)) = true := by decide

/-- P1's last step: the pc stays. -/
theorem test_halt : endsIn (step ((boot [0x10]))) (boot [0x10]) .halted = true := by decide

/-- NH1's second step: the pc at Capacity. -/
theorem test_nop_then_end_of_memory :
    endsIn (step ((bootAt 16 15 [0x00]).setPc 16)) ((bootAt 16 15 [0x00]).setPc 16) .badAddress = true := by decide

/-! ### Moves -/

/-- 42_moves.md R120's example. -/
theorem test_rrmovl : nextIs (step ((boot [0x20, 0x03]).writeReg .A 0x12345678))
    (fun t => t.readReg .B == 0x12345678 && t.readReg .A == 0x12345678 && t.pc == 2) = true := by decide

/-- IRMOVL of SP. -/
theorem test_irmovl : nextIs (step (boot [0x30, 0x84, 0x00, 0x01, 0x00, 0x00])) (fun t => t.readReg .SP == 0x100 && t.pc == 6) = true := by
  decide

/-- FP4: rA below 8 is reported before rB. -/
theorem test_irmovl_rA_below_8 : endsIn (step (withConfig (boot [0x30, 0x0F, 0, 0, 0, 0]) fun c =>
    { c with regFieldFault := .badInstruction })) (withConfig (boot [0x30, 0x0F, 0, 0, 0, 0]) fun c =>
    { c with regFieldFault := .badInstruction }) .badAddress = true := by decide

/-- The last legal address, Capacity − 4. -/
theorem test_rmmovl : nextIs (step ((boot [0x40, 0x03, 0xFC, 0, 0, 0]).writeReg .A 0x11223344))
    (fun t => bytes4 t 0xFC == [0x44, 0x33, 0x22, 0x11] && t.pc == 6) = true := by decide

/-- MV9: no partial write. -/
theorem test_rmmovl_past_end : endsIn (step ((boot [0x40, 0x03, 0xFD, 0, 0, 0]).writeReg .A 0x11223344))
    ((boot [0x40, 0x03, 0xFD, 0, 0, 0]).writeReg .A 0x11223344) .badAddress = true := by decide

/-- MV13: rA = rB, a negative displacement and the old base. -/
theorem test_mrmovl : nextIs (step (withBytes ((boot [0x50, 0x33, 0xFC, 0xFF, 0xFF, 0xFF]).writeReg .B 0xC) 8 [0x78, 0x56, 0x34, 0x12]))
    (fun t => t.readReg .B == 0x12345678 && t.pc == 6) = true := by decide

/-- MV15's second step: the address wraps to 0. -/
theorem test_mrmovl_wraps :
    nextIs (exec (.mrmovl 0 0 0x80000000) ((boot [0x30, 0xF0]).writeReg .A 0x80000000)) (fun t => t.readReg .A == 0x0000F030) = true := by
  decide

/-! ### ALU: a in A, b in B -/

def alu2 (op : Byte) (a b : Word) : State := ((boot [op, 0x03]).writeReg .A a).writeReg .B b

/-- V1. -/
theorem test_addl_overflow : nextIs (step (alu2 0x60 1 0x7FFFFFFF))
    (fun t => t.readReg .B == 0x80000000 && flagBits t == (true, false, true) && t.pc == 2) = true := by decide

/-- V2. -/
theorem test_addl_overflow_to_zero : nextIs (step (alu2 0x60 0x80000000 0x80000000))
    (fun t => t.readReg .B == 0 && flagBits t == (true, true, false)) = true := by decide

/-- V8. -/
theorem test_subl_overflow : nextIs (step (alu2 0x61 0x80000000 0))
    (fun t => t.readReg .B == 0x80000000 && flagBits t == (true, false, true)) = true := by decide

/-- V13: the order is b − a. -/
theorem test_subl_order : nextIs (step (alu2 0x61 3 5)) (fun t => t.readReg .B == 2 && flagBits t == (false, false, false)) = true := by
  decide

/-- V15: OF is cleared. -/
theorem test_andl : nextIs (step ((alu2 0x62 0xF0F0F0F0 0x80000001).setFlags ⟨true, true, true⟩))
    (fun t => t.readReg .B == 0x80000000 && flagBits t == (false, false, true)) = true := by decide

/-- V36: XORL of a register with itself, OF cleared. -/
theorem test_xorl : nextIs (step (((boot [0x63, 0x00]).writeReg .A 0x1234).setFlags ⟨true, true, true⟩))
    (fun t => t.readReg .A == 0 && flagBits t == (false, true, false)) = true := by decide

/-- V22. -/
theorem test_mull_overflow : nextIs (step (alu2 0x64 0xFFFFFFFF 0x80000000))
    (fun t => t.readReg .B == 0x80000000 && flagBits t == (true, false, true)) = true := by decide

/-- V29: −2^31 fits. -/
theorem test_mull_fits : nextIs (step (alu2 0x64 0xFFFFFFFE 0x40000000))
    (fun t => t.readReg .B == 0x80000000 && flagBits t == (false, false, true)) = true := by decide

/-- E6. -/
theorem test_cmpl : nextIs (step (alu2 0x65 5 3))
    (fun t => t.readReg .A == 5 && t.readReg .B == 3 && flagBits t == (false, false, true) && t.pc == 2) = true := by decide

/-- V34. -/
theorem test_cmpl_overflow : nextIs (step (alu2 0x65 0x80000000 0)) (fun t => flagBits t == (true, false, true)) = true := by decide

/-- V39: the field fault leaves the flags. -/
theorem test_alu_field_fault : endsIn (step ((boot [0x60, 0x8F]).setFlags ⟨true, true, true⟩))
    ((boot [0x60, 0x8F]).setFlags ⟨true, true, true⟩) .badAddress = true := by decide

/-- FP5. -/
theorem test_field_fault_parameter : endsIn (step (withConfig (boot [0x20, 0x8F]) fun c => { c with regFieldFault := .badInstruction }))
    (withConfig (boot [0x20, 0x8F]) fun c => { c with regFieldFault := .badInstruction }) .badInstruction = true := by decide

/-! ### Jumps: the table of 44_jumps.md R158, its rows in order, as (ZF, SF, OF) -/

/-- Which rows of the table a jump with this opcode byte takes. -/
def takenRows (op : Byte) : List Bool :=
  [(false, false, false), (false, false, true), (false, true, false), (false, true, true), (true, false, false), (true, false, true),
    (true, true, false), (true, true, true)].map fun (z, sf, o) =>
      nextIs (step (((bootAt 256 0x10 [op, 0x40, 0, 0, 0])).setFlags ⟨o, z, sf⟩)) fun t => t.pc == 0x40

/-- A jump not taken goes on by 5 (J3). -/
theorem test_jump_not_taken : nextIs (step ((bootAt 256 0x10 [0x72, 0x40, 0, 0, 0]).setFlags ⟨true, true, false⟩))
    (fun t => t.pc == 0x15) = true := by decide

theorem test_jmp : takenRows 0x70 = [true, true, true, true, true, true, true, true] := by decide

theorem test_jle : takenRows 0x71 = [false, true, true, false, true, true, true, true] := by decide

theorem test_jl : takenRows 0x72 = [false, true, true, false, false, false, false, false] := by decide

theorem test_je : takenRows 0x73 = [false, false, false, false, true, true, true, true] := by decide

theorem test_jne : takenRows 0x74 = [true, true, true, true, false, false, false, false] := by decide

theorem test_jge : takenRows 0x75 = [true, false, false, true, true, true, true, true] := by decide

theorem test_jg : takenRows 0x76 = [true, false, false, true, false, false, false, false] := by decide

/-! ### The stack -/

/-- S1. -/
theorem test_call : nextIs (step ((bootAt 256 0xC [0x80, 0x40, 0, 0, 0]).writeReg .SP 0x100))
    (fun t => bytes4 t 0xFC == [0x11, 0, 0, 0] && t.readReg .SP == 0xFC && t.pc == 0x40) = true := by decide

/-- S4: SP = 0. -/
theorem test_call_no_stack : endsIn (step (boot [0x80, 0x10, 0, 0, 0])) (boot [0x80, 0x10, 0, 0, 0]) .badAddress = true := by decide

/-- S2. -/
theorem test_ret : nextIs (step (withBytes ((boot [0x90]).writeReg .SP 0xFC) 0xFC [0x11, 0, 0, 0]))
    (fun t => t.pc == 0x11 && t.readReg .SP == 0x100) = true := by decide

/-- S5. -/
theorem test_pushl : nextIs (step (((boot [0xA0, 0x0F]).writeReg .SP 0x100).writeReg .A 0xDEADBEEF))
    (fun t => bytes4 t 0xFC == [0xEF, 0xBE, 0xAD, 0xDE] && t.readReg .SP == 0xFC && t.pc == 2) = true := by decide

/-- S6 and S7. -/
theorem test_pushl_sp :
    nextIs (step ((boot [0xA0, 0x4F]).writeReg .SP 0x100)) (fun t => bytes4 t 0xFC == [0xFC, 0, 0, 0]) = true ∧
    nextIs (step (withConfig ((boot [0xA0, 0x4F]).writeReg .SP 0x100) fun c => { c with spSelfMode := .classic }))
      (fun t => bytes4 t 0xFC == [0x00, 0x01, 0, 0]) = true := by decide

/-- S12: the unused nibble is ignored. -/
theorem test_popl : nextIs (step (withBytes ((boot [0xB0, 0x13]).writeReg .SP 0xFC) 0xFC [7, 0, 0, 0]))
    (fun t => t.readReg .C == 7 && t.readReg .SP == 0x100 && t.pc == 2) = true := by decide

/-- S8's last POPL, in both modes. -/
theorem test_popl_sp :
    nextIs (step (withBytes ((boot [0xB0, 0x4F]).writeReg .SP 0xFC) 0xFC [0xFC, 0, 0, 0])) (fun t => t.readReg .SP == 0x100) = true ∧
    nextIs (step (withConfig (withBytes ((boot [0xB0, 0x4F]).writeReg .SP 0xFC) 0xFC [0x00, 0x01, 0, 0]) fun c =>
      { c with spSelfMode := .classic })) (fun t => t.readReg .SP == 0x100) = true := by decide

/-! ### Input and output -/

/-- IO1. -/
theorem test_readb : nextIs (step (((boot [0xC0, 0x0F, 0, 0, 0, 0]).writeReg .A 0x40).setInput (.byteOnly 0x41 .eof)))
    (fun t => t.byteAt 0x40 == 0x41 && !t.flags.ZF && decide (t.input = .eof) && t.pc == 6) = true := by decide

/-- IO2. -/
theorem test_readb_fails : nextIs (step (((boot [0xC0, 0x0F, 0, 0, 0, 0]).writeReg .A 0x40).setFlags ⟨true, false, true⟩))
    (fun t => t.byteAt 0x40 == 0 && flagBits t == (true, true, true) && t.pc == 6) = true := by decide

/-- An arbitrary host's answer is free, and its position moves on by the read. -/
theorem test_arbitrary_host : (InState.host 0 []).readByte = (Config.hostByte 0 []).map (fun b => (b, .host 0 [.byte])) ∧
    (InState.host 0 [.byte]).readLong = (Config.hostLong 0 [.byte]).map (fun w => (w, .host 0 [.long, .byte])) := ⟨rfl, rfl⟩

/-- IO6's first READL, with ZF set before. -/
theorem test_readl : nextIs (step ((((boot [0xC1, 0x0F, 0x40, 0, 0, 0]).setFlags ⟨false, true, false⟩)).setInput (.longOnly 0xFFFFFFFE .eof)))
    (fun t => bytes4 t 0x40 == [0xFE, 0xFF, 0xFF, 0xFF] && !t.flags.ZF && decide (t.input = .eof)) = true := by decide

/-- IO4: a bad address consumes no input. -/
theorem test_readl_bad_address : endsIn (step ((boot [0xC1, 0x0F, 0xFD, 0, 0, 0]).setInput (.longOnly 7 .eof)))
    ((boot [0xC1, 0x0F, 0xFD, 0, 0, 0]).setInput (.longOnly 7 .eof)) .badAddress = true := by decide

/-- IO8: the last byte of memory. -/
theorem test_writeb : nextIs (step (withBytes (boot [0xD0, 0x0F, 0xFF, 0, 0, 0]) 0xFF [0x41]))
    (fun t => decide (t.output = [.outByte 0x41]) && t.pc == 6) = true := by decide

/-- IO6's WRITEL. -/
theorem test_writel : nextIs (step (withBytes (boot [0xD1, 0x0F, 0x40, 0, 0, 0]) 0x40 [0xFE, 0xFF, 0xFF, 0xFF]))
    (fun t => decide (t.output = [.outLong 0xFFFFFFFE]) && t.pc == 6) = true := by decide

/-- IO9. -/
theorem test_writel_past_end :
    endsIn (step (boot [0xD1, 0x0F, 0xFD, 0, 0, 0])) (boot [0xD1, 0x0F, 0xFD, 0, 0, 0]) .badAddress = true := by decide

/-! ### MOVSBL -/

/-- X5: base and destination are one register. -/
theorem test_movsbl : nextIs (step (withBytes ((boot [0xE0, 0x00, 0, 0, 0, 0]).writeReg .A 0x20) 0x20 [0x90]))
    (fun t => t.readReg .A == 0xFFFFFF90 && t.pc == 6) = true := by decide

/-- X9: the other field order. -/
theorem test_movsbl_base_low : nextIs (step (withBytes (withConfig (((boot [0xE0, 0x72, 0x44, 0, 0, 0]).writeReg .D 0x40).writeReg .DI 9)
    fun c => { c with movsblFieldOrder := .baseLow }) 0x44 [0xF6])) (fun t => t.readReg .DI == 0 && t.readReg .D == 0x40) = true := by
  decide

/-! ### Fetch and fault precedence -/

/-- FP1. -/
theorem test_fetch_illegal_before_truncated : endsIn (step (bootAt 16 15 [0xF1])) (bootAt 16 15 [0xF1]) .badInstruction = true := by decide

/-- FP2. -/
theorem test_fetch_truncated : endsIn (step (bootAt 16 15 [0x60])) (bootAt 16 15 [0x60]) .badAddress = true := by decide

/-- J11's second step: the pc is negative. -/
theorem test_fetch_negative_pc : endsIn (step ((boot []).setPc 0xFFFFFFFF)) ((boot []).setPc 0xFFFFFFFF) .badAddress = true := by decide

/-- SM1's last step: HALT stored over the next instruction. -/
theorem test_stored_code_runs : nextIs (step (withBytes (bootAt 256 0x12 [0x30, 0xF1, 0xFF]) 0x12 [0x10, 0, 0, 0]))
    (fun t => decide (t.status = .halted) && t.pc == 0x12) = true := by decide

/-- The core takes no step after HALTED (10_state.md R32). -/
theorem test_no_step_when_halted : nextIs (step ((boot [0x00]).setStatus .halted)) (fun _ => true) = false := by decide

/-! ### The loader -/

/-- E3: `.size 20` / `.text 8 0010`. -/
theorem test_load_e3 : isOk (load [.size ['2', '0'], .text ['8'] ['0', '0', '1', '0']])
    (fun p => decide (p.capacity.val = 0x20) && p.entry == 8 && decide (p.image = [(9, 0x10)])) = true := by decide

/-- E2, with the loader's remaining directives. -/
theorem test_load_e2 : isOk (load [.string ['1', '0'] [0x41, 0x42], .bss, .long ['4'] ['-', '2'], .byte ['F'] ['a', '5'],
      .text ['0'] ['1', '0'], .size ['1', '2']])
    (fun p => decide (p.image = [(0, 0x10), (4, 0xFE), (5, 0xFF), (6, 0xFF), (7, 0xFF), (15, 0xA5), (16, 0x41), (17, 0x42)])) = true := by
  decide

/-- The error a load ends in is this one. -/
def failsWith (ds : List Directive) (e : LoadError) : Bool := isError (load ds) fun e' => decide (e' = e)

/-- R222, R223: exactly one `.size` and one `.text`. -/
theorem test_load_counts : failsWith [.text ['0'] []] .noSize = true ∧ failsWith [.size ['4']] .noText = true ∧
    failsWith [.size ['4'], .text ['0'] [], .size ['8']] (.secondSize ['8']) = true ∧
    failsWith [.size ['4'], .text ['0'] [], .text ['1'] []] (.secondText ['1']) = true := by decide

/-- R221, R228, R230, R231 and R232: each load error with its token. -/
theorem test_load_errors :
    failsWith [.size ['4'], .text ['0'] [], .unrecognized ['.', 'x']] (.unrecognized ['.', 'x']) = true ∧
    failsWith [.size ['4'], .text ['0'] [], .malformed ['1', '0']] (.malformed ['1', '0']) = true ∧
    failsWith [.size ['1'], .text ['0'] ['0', '0', '1', '0']] (.outOfRange ['0']) = true ∧
    failsWith [.size ['g'], .text ['0'] []] (.badHex ['g']) = true ∧
    failsWith [.size ['4'], .text ['0'] ['1', '0', '3']] (.oddText ['1', '0', '3']) = true ∧
    failsWith [.size ['8', '0', '0', '0', '0', '0', '0', '0'], .text ['0'] []]
      (.capacityRange ['8', '0', '0', '0', '0', '0', '0', '0']) = true ∧
    failsWith [.size ['4'], .text ['0'] [], .byte ['0'] ['1', '0', '0']] (.byteRange ['1', '0', '0']) = true := by decide

/-- R225, R232: the ends of the range of `.long`, and a value that is no decimal number. -/
theorem test_load_decimal :
    isOk (decValue ['-', '2', '1', '4', '7', '4', '8', '3', '6', '4', '8']) (fun v => decide (v = -2147483648)) = true ∧
    isError (decValue ['2', '1', '4', '7', '4', '8', '3', '6', '4', '8'])
      (fun e => decide (e = .longRange ['2', '1', '4', '7', '4', '8', '3', '6', '4', '8'])) = true ∧
    isError (decValue ['-']) (fun e => decide (e = .badDecimal ['-'])) = true ∧
    isError (decValue ['a']) (fun e => decide (e = .badDecimal ['a'])) = true := by decide

/-- R230: an empty `.text` outside memory loads, and the first fetch faults. -/
theorem test_load_empty_text_outside : isOk (load [.size ['4'], .text ['8'] []]) (fun p =>
    nextIs (step (State.launch (referenceLaunch.withLoaded p))) fun t => decide (t.status = .badAddress) && t.pc == 8) = true := by decide

/-! ### Witnesses: the hypotheses of each statement can be met, each clause at the ends of its range -/

theorem witness_DecodeAfterEncode : OpcodeMap.reference.wf ∧ decode OpcodeMap.reference (encode OpcodeMap.reference (.pushl 15 15)) =
    .ok (.pushl 15 15, []) := ⟨by decide, rfl⟩

theorem witness_EncodeAfterDecode : decode OpcodeMap.reference [0xB0, 0xFF, 0x10] = .ok (.popl 15 15, [0x10]) := rfl

/-- No byte, an illegal byte, and a legal opcode one byte short and just long enough. -/
theorem witness_DecoderRefusals : OpcodeMap.reference.wf ∧ decode OpcodeMap.reference [] = .error .noOpcodeByte ∧
    decode OpcodeMap.reference [0x0F, 0x10] = .error (.illegalOpcode 0x0F) ∧
    decode OpcodeMap.reference [0x80, 0, 0, 0] = .error (.truncated .call) ∧
    decode OpcodeMap.reference [0x80, 0, 0, 0, 0] = .ok (.call 0, []) := ⟨by decide, rfl, rfl, rfl, rfl⟩

theorem witness_FieldsNameRegisters : 8 ≤ (8 : RegField).toNat ∧ 8 ≤ (15 : RegField).toNat := by decide

/-- The lowest address, the highest legal ones, the first illegal ones and the most negative one. -/
theorem witness_bounds : (boot []).inBounds 0 1 = true ∧ (boot []).inBounds 0xFF 1 = true ∧ (boot []).inBounds 0x100 1 = false ∧
    (boot []).inBounds 0xFC 4 = true ∧ (boot []).inBounds 0xFD 4 = false ∧ (boot []).inBounds 0xFFFFFFFC 4 = false ∧
    (boot []).inBounds 0x80000000 1 = false := by decide

theorem witness_LoadsReadTheImage :
    (¬(0 ≤ (0x100 : Word).toInt ∧ (0x100 : Word).toInt + 1 ≤ (boot []).config.capacity.val)) ∧
    (0 ≤ (0xFF : Word).toInt ∧ (0xFF : Word).toInt + 1 ≤ (boot []).config.capacity.val) ∧
    (¬(0 ≤ (0xFD : Word).toInt ∧ (0xFD : Word).toInt + 4 ≤ (boot []).config.capacity.val)) ∧
    (0 ≤ (0xFC : Word).toInt ∧ (0xFC : Word).toInt + 4 ≤ (boot []).config.capacity.val) := by decide

theorem witness_StoresWriteTheImage : (boot [0x10]).mem.wf ∧
    (¬(0 ≤ (0x80000000 : Word).toInt ∧ (0x80000000 : Word).toInt + 1 ≤ (boot [0x10]).config.capacity.val)) ∧
    (0 ≤ (0 : Word).toInt ∧ (0 : Word).toInt + 1 ≤ (boot [0x10]).config.capacity.val) ∧
    (¬(0 ≤ (0xFD : Word).toInt ∧ (0xFD : Word).toInt + 4 ≤ (boot [0x10]).config.capacity.val)) ∧
    (0 ≤ (0xFC : Word).toInt ∧ (0xFC : Word).toInt + 4 ≤ (boot [0x10]).config.capacity.val) := by decide

theorem witness_MixedWidths : (boot []).mem.wf ∧ ∃ t, (boot []).storeWord 0xFC 0x11223344 = .ok t := ⟨by decide, _, rfl⟩

theorem witness_LaunchState : referenceLaunch.wf := by decide

theorem witness_StepKeepsInvariant : ((boot [0xA0, 0x0F]).writeReg .SP 0x100).Inv ∧ ∃ t, step ((boot [0xA0, 0x0F]).writeReg .SP 0x100) = .next t :=
  ⟨by decide, _, rfl⟩

theorem witness_StepKeepsConfig : ∃ t, step (boot [0x00]) = .next t := ⟨_, rfl⟩

/-- A byte written twice (the later directive wins), a byte written once and a byte no directive writes. -/
theorem witness_LoadedLaunch : referenceLaunch.config.opcodes.wf ∧
    (∃ p, load [.size ['4'], .byte ['1'] ['f', 'f'], .text ['0'] ['0', '0', '1', '0']] = .ok p ∧ p.image = [(1, 0x10)]) ∧
    Directive.writes (.byte ['1'] ['f', 'f']) = .ok (1, [0xFF]) ∧
    Directive.writes (.text ['0'] ['0', '0', '1', '0']) = .ok (0, [0x00, 0x10]) := ⟨by decide, ⟨_, rfl, rfl⟩, rfl, rfl⟩

/-- A missing `.size`, a missing `.text` and a token of a directive. -/
theorem witness_LoadErrorsReportTheirToken : failsWith [] .noSize = true ∧ failsWith [.size ['4']] .noText = true ∧
    failsWith [.size ['4'], .text ['5'] ['1', '0']] (.outOfRange ['5']) = true := by decide

theorem witness_StepsWhileRunning : (boot [0x00]).status = .running ∧ (State.setStatus (boot []) .badAddress).status.terminal = true := by
  decide

theorem witness_TerminalIsForever : (State.setStatus (boot []) .halted).status.terminal = true ∧
    Reaches (State.setStatus (boot []) .halted) (State.setStatus (boot []) .halted) := ⟨by decide, .refl _⟩

/-- An instruction that ends at Capacity. -/
theorem witness_StepRunsDecoded : (bootAt 256 0xFA [0x30, 0xF0, 1, 0, 0, 0]).status = .running ∧
    (bootAt 256 0xFA [0x30, 0xF0, 1, 0, 0, 0]).inBounds 0xFA 6 = true ∧
    decode OpcodeMap.reference ((List.range 6).map fun k => (bootAt 256 0xFA [0x30, 0xF0, 1, 0, 0, 0]).byteAt (0xFA + k)) =
      .ok (.irmovl 15 0 1, []) := ⟨by decide, by decide, rfl⟩

theorem witness_StoredCodeRuns : (bootAt 256 0xFA []).status = .running ∧ (bootAt 256 0xFA []).mem.wf ∧
    (bootAt 256 0xFA []).config.opcodes.wf ∧ (bootAt 256 0xFA []).inBounds (bootAt 256 0xFA []).pc (Instr.irmovl 15 0 1).opcode.length = true := by
  decide

/-- A pc at Capacity, an illegal byte in the last place, and a two-byte instruction in the last place. -/
theorem witness_FetchFaults : (bootAt 16 16 []).status = .running ∧ (bootAt 16 16 []).inBounds (bootAt 16 16 []).pc 1 = false ∧
    (bootAt 16 15 [0xF1]).inBounds (bootAt 16 15 [0xF1]).pc 1 = true ∧
    (Opcode.all.all fun op => decide (OpcodeMap.reference.byteOf op ≠ (bootAt 16 15 [0xF1]).byteAt 15)) = true ∧
    (bootAt 16 15 [0x60]).inBounds (bootAt 16 15 [0x60]).pc 1 = true ∧
    OpcodeMap.reference.opcodeOf ((bootAt 16 15 [0x60]).byteAt 15) = some .addl ∧
    (bootAt 16 15 [0x60]).inBounds (bootAt 16 15 [0x60]).pc Opcode.addl.length = false := by decide

/-- IRMOVL with rA = 7, and with rA = 8 and rB = 8; RRMOVL with rB = 8. -/
theorem witness_FieldFaults : (Instr.irmovl 7 0 0).wellFormed = false ∧ (7 : RegField).toNat < 8 ∧
    (Instr.irmovl 8 8 0).wellFormed = false ∧ 8 ≤ (8 : RegField).toNat ∧ (Instr.rrmovl 7 8).wellFormed = false := by decide

theorem witness_AccessFaults : (Instr.readl 0 15 0xFD).wellFormed = true ∧ accessSpan (.readl 0 15 0xFD) (boot []) = some (0xFD, 4) ∧
    ¬(0 ≤ (0xFD : Word).toInt ∧ (0xFD : Word).toInt + 4 ≤ (boot []).config.capacity.val) := by decide

theorem witness_HaltedOnlyByHalt : nextIs (step (boot [0x10])) (fun t => decide (t.status = .halted)) = true ∧
    nextIs (step (boot [0x00])) (fun t => decide (t.status ≠ .halted)) = true := by decide

/-- Both causes. -/
theorem witness_BadInstructionCauses : nextIs (step (boot [0xFF])) (fun t => decide (t.status = .badInstruction)) = true ∧
    fieldTrap (.rrmovl 8 15) = some .regFault ∧
    nextIs (step (withConfig (boot [0x20, 0x8F]) fun c => { c with regFieldFault := .badInstruction }))
      (fun t => decide (t.status = .badInstruction)) = true := by decide

/-- A fetch outside memory, IRMOVL's rA, a register field and a data access. -/
theorem witness_BadAddressCauses : [bootAt 16 16 [], boot [0x30, 0x00], boot [0x20, 0x8F], boot [0x90]].map
    (fun s => nextIs (step (s.writeReg .SP 0xFD)) fun t => decide (t.status = .badAddress)) = [true, true, true, true] ∧
    fieldTrap (.irmovl 0 0 0) = some .badAddress ∧ fieldTrap .ret = none := by decide

theorem witness_EndingStepsArePrecise : nextIs (step (boot [0x80, 0x10, 0, 0, 0])) (fun t => t.status.terminal) = true := by decide

theorem witness_RunsEndOnce : EndsIn (boot [0x10]) ((boot [0x10]).setStatus .halted) := ⟨.tail (.refl _) rfl, rfl⟩

theorem witness_SequentialPc : nextIs (step (boot [0x20, 0x03])) (fun t => decide (t.status = .running)) = true ∧
    isOk (boot [0x20, 0x03]).fetch (fun i => decide (i = .rrmovl 0 3)) = true := by decide

/-- A storing form, with an address outside its span. -/
theorem witness_MemoryWriters : (boot []).mem.wf ∧ storeSpan (.readb 0 15 0x40) (boot []) = some (0x40, 1) ∧ (0x40 : Word).toNat + 1 ≤ 0x41 ∧
    storeSpan (.writeb 0 15 0x40) (boot []) = none ∧ nextIs (exec (.readb 0 15 0x40) (boot [])) (fun _ => true) = true := by decide

theorem witness_MemoryReaders : accessSpan (.mrmovl 0 3 0xFC) (boot []) = some (0xFC, 4) ∧
    Memory.read [(0xFB, 7)] (0xFC + 0) = (boot []).byteAt (0xFC + 0) ∧ Memory.read [(0xFB, 7)] (0xFC + 3) = (boot []).byteAt (0xFC + 3) := by
  decide

theorem witness_RegisterWriters : nextIs (exec (.popl 0 15) (boot [])) (fun _ => true) = true ∧ destRegs (.popl 0 15) (boot []) = [.SP, .A] := by
  decide

theorem witness_FlagWriters : nextIs (exec (.readb 0 15 0) (boot [])) (fun _ => true) = true ∧
    (Instr.readb 0 15 0).opcode ∉ [Opcode.addl, .subl, .andl, .xorl, .mull, .cmpl] ∧ Instr.nop.opcode ∉ [Opcode.readb, .readl] := by decide

theorem witness_FlagReaders : (Instr.addl 0 3).opcode ∉ [Opcode.jle, .jl, .je, .jne, .jge, .jg] ∧
    (Instr.addl 0 3).opcode ∈ [Opcode.addl, .subl, .andl, .xorl, .mull, .cmpl] ∧ (Instr.addl 0 3).wellFormed = true := by decide

theorem witness_OutputOnlyGrows : nextIs (step (boot [0xD0, 0x0F, 0, 0, 0, 0])) (fun t => decide (t.output = [.outByte 0xD0])) = true ∧
    nextIs (step (boot [0xD1, 0x0F, 0, 0, 0, 0])) (fun t => decide (t.output = [.outLong 0x00000FD1])) = true := by decide

theorem witness_InputOnlyRead :
    nextIs (step ((boot [0xC0, 0x0F, 0, 0, 0, 0]).setInput (.either 1 .eof 2 .eof))) (fun t => decide (t.input = .eof)) = true ∧
    nextIs (step ((boot [0xC1, 0x0F, 0, 0, 0, 0]).setInput (.either 1 .eof 2 .eof))) (fun t => decide (t.input = .eof)) = true := by decide

theorem unending_endless (b : Byte) (w : Word) : (InState.endless b w).Unending := by
  have same : ∀ j, InState.Ahead (.endless b w) j → j = .endless b w := fun j h => by
    induction h with
    | here => rfl
    | byte _ _ h ih | long _ _ h ih =>
      subst ih
      cases h
      rfl
  intro j h
  rw [same j h]
  exact ⟨nofun, nofun⟩

/-- A host that never ends, two steps into a run: a READB, then a READL. -/
theorem witness_UnendingInputNeverFails :
    ((boot [0xC0, 0x0F, 0x40, 0, 0, 0, 0xC1, 0x0F, 0x40, 0, 0, 0]).setInput (.endless 7 9)).input.Unending ∧
    ∃ t u, Reaches ((boot [0xC0, 0x0F, 0x40, 0, 0, 0, 0xC1, 0x0F, 0x40, 0, 0, 0]).setInput (.endless 7 9)) t ∧ step t = .next u ∧
      isOk t.fetch (fun i => decide (i = .readl 0 15 0x40)) = true ∧ u.status = .running :=
  ⟨unending_endless 7 9, _, _, .tail (.refl _) rfl, rfl, by decide, rfl⟩

theorem witness_RrmovlCopies : regOfField 0 = some .A ∧ regOfField 7 = some .DI := by decide

/-- Both clauses, at both sides of 8. -/
theorem witness_IrmovlLoadsImmediate : (7 : RegField).toNat < 8 ∧ 8 ≤ (8 : RegField).toNat ∧ 8 ≤ (15 : RegField).toNat ∧
    regOfField 4 = some .SP := by decide

/-- The highest legal address, and one register as source and base. -/
theorem witness_RmmovlStores : (boot []).mem.wf ∧ regOfField 3 = some .B ∧ (boot []).inBounds ((boot []).ea .B 0xFC) 4 = true := by decide

theorem witness_MrmovlLoads : regOfField 3 = some .B ∧ (boot []).inBounds ((boot []).ea .B 0xFC) 4 = true := by decide

theorem witness_ZeroAndSignFlags : regOfField 0 = some .A ∧ regOfField 3 = some .B ∧
    (Instr.cmpl 0 3, (boot []).readReg .B - (boot []).readReg .A) ∈
      [(Instr.addl 0 3, (boot []).readReg .B + (boot []).readReg .A), (.subl 0 3, (boot []).readReg .B - (boot []).readReg .A),
        (.andl 0 3, (boot []).readReg .B &&& (boot []).readReg .A), (.xorl 0 3, (boot []).readReg .B ^^^ (boot []).readReg .A),
        (.mull 0 3, (boot []).readReg .B * (boot []).readReg .A), (.cmpl 0 3, (boot []).readReg .B - (boot []).readReg .A)] := by decide

theorem witness_AddlSublResults : regOfField 0 = some .A ∧ regOfField 3 = some .B := by decide

/-- One register as both operands. -/
theorem witness_MullResult : regOfField 7 = some .DI ∧ regOfField 7 = some .DI := by decide

theorem witness_AndlXorlResults : regOfField 0 = some .A ∧ regOfField 4 = some .SP := by decide

theorem witness_CmplOnlyFlags : regOfField 1 = some .C ∧ regOfField 2 = some .D := by decide

theorem witness_OverflowFromSigns : regOfField 0 = some .A ∧ regOfField 3 = some .B ∧
    nextIs (exec (.addl 0 3) (alu2 0x60 1 0x7FFFFFFF)) (fun t => t.flags.OF) = true ∧
    nextIs (exec (.subl 0 3) (alu2 0x61 0x80000000 0)) (fun t => t.flags.OF) = true := by decide

theorem witness_CompareThenJump : regOfField 0 = some .A ∧ regOfField 3 = some .B ∧ (∃ t, exec (.cmpl 0 3) (alu2 0x65 0x80000000 0) = .next t) ∧
    ∃ t, exec (.subl 0 3) (alu2 0x61 0x80000000 0) = .next t := ⟨by decide, by decide, ⟨_, rfl⟩, _, rfl⟩

/-- A stack with room for `n` words below the end of memory. -/
def stack (n : Nat) : State := (boot []).writeReg .SP (BitVec.ofNat 32 (0x100 - 4 * n))

/-- A stack at the top of memory, and one with its last place at address 0. -/
theorem witness_CallPushes : (stack 0).mem.wf ∧ (stack 0).inBounds ((stack 0).readReg .SP - 4) 4 = true ∧
    (stack 63).inBounds ((stack 63).readReg .SP - 4) 4 = true := by decide

/-- One word at the top of memory, and SP at address 0. -/
theorem witness_RetPops : (stack 1).inBounds ((stack 1).readReg .SP) 4 = true ∧ (stack 64).inBounds ((stack 64).readReg .SP) 4 = true := by
  decide

theorem witness_CallThenRet : (stack 0).mem.wf ∧ (stack 0).inBounds ((stack 0).readReg .SP - 4) 4 = true := by decide

/-- A register other than SP, and SP itself in both modes. -/
theorem witness_PushlStores : (stack 0).mem.wf ∧ regOfField 0 = some .A ∧ regOfField 4 = some .SP ∧
    (stack 0).inBounds ((stack 0).readReg .SP - 4) 4 = true ∧ (stack 0).config.spSelfMode = .literal ∧
    (withConfig (stack 0) fun c => { c with spSelfMode := .classic }).config.spSelfMode = .classic := by decide

theorem witness_PoplLoads : regOfField 0 = some .A ∧ regOfField 4 = some .SP ∧ (stack 1).inBounds ((stack 1).readReg .SP) 4 = true ∧
    (stack 1).config.spSelfMode = .literal ∧
    (withConfig (stack 1) fun c => { c with spSelfMode := .classic }).config.spSelfMode = .classic := by decide

theorem witness_PushThenPop : (stack 0).mem.wf ∧ regOfField 4 = some .SP ∧ (stack 0).inBounds ((stack 0).readReg .SP - 4) 4 = true := by
  decide

/-- The highest legal addresses, with an answer for each kind of read. -/
theorem witness_ReadsStore : (boot []).mem.wf ∧ regOfField 0 = some .A ∧ (boot []).inBounds ((boot []).ea .A 0xFF) 1 = true ∧
    ((boot []).setInput (.byteOnly 1 .eof)).input.readByte = some (1, .eof) ∧ (boot []).inBounds ((boot []).ea .A 0xFC) 4 = true ∧
    ((boot []).setInput (.longOnly 2 .eof)).input.readLong = some (2, .eof) := by decide

theorem witness_FailedReadsSetZF : regOfField 0 = some .A ∧ (boot []).inBounds ((boot []).ea .A 0xFF) 1 = true ∧
    (boot []).input.readByte = none ∧ (boot []).inBounds ((boot []).ea .A 0xFC) 4 = true ∧ (boot []).input.readLong = none := by decide

theorem witness_WritesEmit : regOfField 0 = some .A ∧ (boot []).inBounds ((boot []).ea .A 0xFF) 1 = true ∧
    (boot []).inBounds ((boot []).ea .A 0xFC) 4 = true := by decide

/-- Both field orders. -/
theorem witness_MovsblSignExtends : regOfField 7 = some .DI ∧ regOfField 2 = some .D ∧ (boot []).config.movsblFieldOrder = .baseHigh ∧
    (withConfig (boot []) fun c => { c with movsblFieldOrder := .baseLow }).config.movsblFieldOrder = .baseLow ∧
    (boot []).inBounds ((boot []).ea .DI 0xFF) 1 = true := by decide

end Sys2Proof.Tests
end

section
/-! SUPPORT. The shapes of a completed instruction: the 28 meanings of `Completed` sorted by the parts of the state they write, so that
what a step keeps is a case split over the shapes, and what every step does to the state, part by part. -/

namespace Sys2Proof.Machine

variable {i : Instr} {s t : State}

/-- A conditional jump moves the pc, taken or not (44_jumps.md R150). -/
theorem State.jumpIf_eq_setPc (s : State) (c : Bool) (dest : Word) :
    s.jumpIf c dest = s.setPc (if c then dest else s.pc + 5) := by
  cases c <;> rfl

/-- POPL writes the register it names; `SPSelfMode` bears on the value alone (45_call_stack.md R163). -/
theorem State.popInto_eq_writeReg (s : State) (r : Reg) (v : Word) :
    s.popInto r v = s.writeReg r (if r = .SP ∧ s.config.spSelfMode = .literal then v + 4 else v) := by
  unfold State.popInto
  split
  next h => rw [h.1]
  next => rfl

/-- The memory `m` is that of `s` after one store that was admitted (20_memory.md R59). -/
def Stored (s : State) (m : Memory) : Prop :=
  (∃ a b, s.storeByte a b = .ok (s.setMem m)) ∨ ∃ a w, s.storeWord a w = .ok (s.setMem m)

theorem State.storeByte_stored {a : Word} {b : Byte} (h : s.storeByte a b = .ok t) : ∃ m, Stored s m ∧ t = s.setMem m := by
  obtain ⟨-, rfl⟩ := State.storeByte_ok.1 h
  exact ⟨_, .inl ⟨a, b, h⟩, rfl⟩

theorem State.storeWord_stored {a w : Word} (h : s.storeWord a w = .ok t) : ∃ m, Stored s m ∧ t = s.setMem m := by
  obtain ⟨-, rfl⟩ := State.storeWord_ok.1 h
  exact ⟨_, .inr ⟨a, w, h⟩, rfl⟩

/-- A push is a store and a write of SP (20_memory.md R69). -/
theorem State.push_stored {v : Word} (h : s.push v = .ok t) :
    ∃ m, Stored s m ∧ t = (s.setMem m).writeReg .SP s.pushAddr := by
  obtain ⟨u, hu, h⟩ := bind_ok h
  obtain ⟨m, hm, rfl⟩ := State.storeWord_stored hu
  cases h
  exact ⟨m, hm, rfl⟩

/-- The opcodes that transfer control (10_state.md R30): the jumps, CALL and RET. -/
abbrev transferOps : List Opcode := [.jmp, .jle, .jl, .je, .jne, .jge, .jg, .call, .ret]

/-- The opcodes of the six ALU instructions (43_alu.md). -/
abbrev aluOps : List Opcode := [.addl, .subl, .andl, .xorl, .mull, .cmpl]

/-- `a` is where the pc of `s` may stand after `i`: anywhere if `i` transfers control, else past `i`. -/
def PcAfter (i : Instr) (s : State) (a : Word) : Prop :=
  i.opcode ∉ transferOps → a = s.pc + BitVec.ofNat 32 i.opcode.length

/-- The next state of an instruction that completes, by what the instruction writes beside the pc. -/
inductive Effect (i : Instr) (s : State) : State → Prop where
  /-- HALT: the status, and not even the pc. -/
  | halted : Effect i s (s.setStatus .halted)
  /-- NOP and the jumps: nothing. -/
  | moved (a : Word) : PcAfter i s a → Effect i s (s.setPc a)
  /-- RRMOVL, IRMOVL, MRMOVL, MOVSBL and RET: a register. -/
  | loaded (r : Reg) (v a : Word) : r ∈ destRegs i s → PcAfter i s a → Effect i s ((s.writeReg r v).setPc a)
  /-- POPL: SP and a register. -/
  | popped (r : Reg) (p v a : Word) : .SP ∈ destRegs i s → r ∈ destRegs i s → PcAfter i s a →
      Effect i s (((s.writeReg .SP p).writeReg r v).setPc a)
  /-- CMPL: the flags. -/
  | compared (f : Flags) (a : Word) : i.opcode ∈ aluOps → PcAfter i s a → Effect i s ((s.setFlags f).setPc a)
  /-- The other ALU instructions: the flags and a register. -/
  | computed (f : Flags) (r : Reg) (v a : Word) : i.opcode ∈ aluOps → r ∈ destRegs i s → PcAfter i s a →
      Effect i s (((s.setFlags f).writeReg r v).setPc a)
  /-- RMMOVL: memory. -/
  | stored (m : Memory) (a : Word) : Stored s m → PcAfter i s a → Effect i s ((s.setMem m).setPc a)
  /-- PUSHL and CALL: memory and SP. -/
  | pushed (m : Memory) (p a : Word) : Stored s m → .SP ∈ destRegs i s → PcAfter i s a →
      Effect i s (((s.setMem m).writeReg .SP p).setPc a)
  /-- READB and READL that the host answers: memory, the input position and ZF. -/
  | received (m : Memory) (input : InState) (a : Word) : Stored s m →
      (i.opcode = .readb ∧ (∃ b, s.input.readByte = some (b, input)) ∨
        i.opcode = .readl ∧ ∃ w, s.input.readLong = some (w, input)) → PcAfter i s a →
      Effect i s ((((s.setMem m).setInput input).setZF false).setPc a)
  /-- READB and READL that the host does not answer: ZF. -/
  | unanswered (a : Word) : i.opcode ∈ [.readb, .readl] → PcAfter i s a → Effect i s ((s.setZF true).setPc a)
  /-- WRITEB and WRITEL: the output trace. -/
  | emitted (e : OutEvent) (a : Word) :
      (i.opcode = .writeb ∧ (∃ b, e = .outByte b) ∨ i.opcode = .writel ∧ ∃ w, e = .outLong w) → PcAfter i s a →
      Effect i s ((s.emit e).setPc a)

/-- An instruction that transfers control may leave the pc anywhere. -/
theorem PcAfter.of_transfer (h : i.opcode ∈ transferOps) (a : Word) : PcAfter i s a := fun hn => absurd h hn

/-- An instruction that moves the pc on by its length, its opcode's (40_step.md R107). -/
theorem PcAfter.of_length {n : Nat} (h : i.opcode.length = n) : PcAfter i s (s.pc + BitVec.ofNat 32 n) := fun _ => by rw [h]

/-- MOVSBL's destination is among the registers it may write, in both field orders (47_movsbl.md R180). -/
theorem movsblRoles_mem_destRegs {rA rB : RegField} {V : Word} {ra rb : Reg} (ha : regOfField rA = some ra)
    (hb : regOfField rB = some rb) : (movsblRoles s.config.movsblFieldOrder ra rb).2 ∈ destRegs (.movsbl rA rB V) s := by
  unfold destRegs
  cases s.config.movsblFieldOrder <;> simp [movsblRoles, ha, hb]

/-- An ALU instruction with a destination (43_alu.md R130). -/
theorem AluCompleted.computed {rA rB : RegField} {res : Word → Word → Word} {flags : Word → Word → Flags}
    (h : AluCompleted rA rB res flags true s t) (hi : i.opcode ∈ aluOps) (hd : destRegs i s = (regOfField rB).toList)
    (hl : i.opcode.length = 2) : Effect i s t := by
  obtain ⟨ra, rb, -, hb, rfl⟩ := h
  exact .computed _ rb _ _ hi (by simp [hd, hb]) (.of_length hl)

/-- Every completed instruction has one of the shapes. -/
theorem Completed.effect (h : Completed i s t) : Effect i s t := by
  cases i with
  | nop =>
    subst h
    exact .moved _ (.of_length rfl)
  | halt =>
    subst h
    exact .halted
  | jmp =>
    subst h
    exact .moved _ (.of_transfer (by simp [Instr.opcode]) _)
  | jle | jl | je | jne | jge | jg =>
    rw [h, State.jumpIf_eq_setPc]
    exact .moved _ (.of_transfer (by simp [Instr.opcode]) _)
  | addl | subl | andl | xorl | mull => exact AluCompleted.computed h (by simp [Instr.opcode]) rfl rfl
  | cmpl =>
    obtain ⟨ra, rb, -, -, rfl⟩ := h
    exact .compared _ _ (by simp [Instr.opcode]) (.of_length rfl)
  | rrmovl =>
    obtain ⟨src, dst, -, hd, rfl⟩ := h
    exact .loaded dst _ _ (by simp [destRegs, hd]) (.of_length rfl)
  | irmovl =>
    obtain ⟨dst, -, hd, rfl⟩ := h
    exact .loaded dst _ _ (by simp [destRegs, hd]) (.of_length rfl)
  | mrmovl =>
    obtain ⟨dst, base, w, hd, -, -, rfl⟩ := h
    exact .loaded dst _ _ (by simp [destRegs, hd]) (.of_length rfl)
  | movsbl =>
    obtain ⟨ra, rb, b, ha, hb, -, rfl⟩ := h
    exact .loaded _ _ _ (movsblRoles_mem_destRegs ha hb) (.of_length rfl)
  | rmmovl =>
    obtain ⟨src, base, u, -, -, hu, rfl⟩ := h
    obtain ⟨m, hm, rfl⟩ := State.storeWord_stored hu
    exact .stored m _ hm (.of_length rfl)
  | call =>
    obtain ⟨u, hu, rfl⟩ := h
    obtain ⟨m, hm, rfl⟩ := State.push_stored hu
    exact .pushed m _ _ hm (by simp [destRegs]) (.of_transfer (by simp [Instr.opcode]) _)
  | ret =>
    obtain ⟨v, u, hu, rfl⟩ := h
    obtain ⟨-, rfl⟩ := State.pop_ok.1 hu
    exact .loaded .SP _ v (by simp [destRegs]) (.of_transfer (by simp [Instr.opcode]) _)
  | pushl =>
    obtain ⟨r, u, -, hu, rfl⟩ := h
    obtain ⟨m, hm, rfl⟩ := State.push_stored hu
    exact .pushed m _ _ hm (by simp [destRegs]) (.of_length rfl)
  | popl =>
    obtain ⟨r, v, u, hr, hu, rfl⟩ := h
    obtain ⟨-, rfl⟩ := State.pop_ok.1 hu
    rw [State.popInto_eq_writeReg]
    exact .popped r _ _ _ (by simp [destRegs]) (by simp [destRegs, hr]) (.of_length rfl)
  | readb =>
    obtain ⟨base, -, -, ⟨b, input, u, hin, hu, rfl⟩ | ⟨-, rfl⟩⟩ := h
    · obtain ⟨m, hm, rfl⟩ := State.storeByte_stored hu
      exact .received m input _ hm (.inl ⟨rfl, b, hin⟩) (.of_length rfl)
    · exact .unanswered _ (by simp [Instr.opcode]) (.of_length rfl)
  | readl =>
    obtain ⟨base, -, -, ⟨w, input, u, hin, hu, rfl⟩ | ⟨-, rfl⟩⟩ := h
    · obtain ⟨m, hm, rfl⟩ := State.storeWord_stored hu
      exact .received m input _ hm (.inr ⟨rfl, w, hin⟩) (.of_length rfl)
    · exact .unanswered _ (by simp [Instr.opcode]) (.of_length rfl)
  | writeb =>
    obtain ⟨base, b, -, -, rfl⟩ := h
    exact .emitted _ _ (.inl ⟨rfl, b, rfl⟩) (.of_length rfl)
  | writel =>
    obtain ⟨base, w, -, -, rfl⟩ := h
    exact .emitted _ _ (.inr ⟨rfl, w, rfl⟩) (.of_length rfl)

/-- An instruction that runs raises, or completes with one of the shapes. -/
theorem exec_effect (h : exec i s = .next t) : (∃ e, t = s.raise e) ∨ Effect i s t :=
  (exec_cases h).imp (fun ⟨e, _, ht⟩ => ⟨e, ht⟩) Completed.effect

/-- A step that answers a next state takes a fault, or runs the fetched instruction with one of the shapes. -/
theorem step_effect (h : step s = .next t) : (∃ e, t = s.raise e) ∨ ∃ i, s.fetch = .ok i ∧ Effect i s t := by
  obtain ⟨-, ⟨i, hf, hx⟩ | ⟨e, -, rfl⟩⟩ := step_cases h
  · exact (exec_effect hx).imp_right fun he => ⟨i, hf, he⟩
  · exact .inl ⟨e, rfl⟩

/-! ### What each shape does to a part of the state -/

theorem Effect.config_eq (h : Effect i s t) : t.config = s.config := by
  cases h <;> rfl

/-- Memory is as before or after one admitted store. -/
theorem Effect.mem_cases (h : Effect i s t) : t.mem = s.mem ∨ Stored s t.mem := by
  cases h with
  | stored m a hm | pushed m p a hm | received m input a hm => exact .inr hm
  | halted | moved | loaded | popped | compared | computed | unanswered | emitted => exact .inl rfl

theorem Effect.regsKept (h : Effect i s t) : RegsKept s t (destRegs i s) := by
  intro q hq
  have ne {r : Reg} (hr : r ∈ destRegs i s) : q ≠ r := fun e => hq (e ▸ hr)
  cases h with
  | loaded r v a hr => simp [ne hr]
  | popped r p v a hsp hr => simp [ne hsp, ne hr]
  | computed f r v a _ hr => simp [ne hr]
  | pushed m p a _ hsp => simp [ne hsp]
  | halted | moved | compared | stored | received | unanswered | emitted => rfl

/-- Only the ALU instructions write OF and SF, and only they and the reads write ZF (10_state.md R26). -/
theorem Effect.flags_cases (h : Effect i s t) :
    i.opcode ∈ aluOps ∨ t.flags = s.flags ∨ (i.opcode ∈ [.readb, .readl] ∧ ∃ z, t.flags = { s.flags with ZF := z }) := by
  cases h with
  | compared f a hi | computed f r v a hi => exact .inl hi
  | received m input a _ hi => exact .inr (.inr ⟨by rcases hi with ⟨h, -⟩ | ⟨h, -⟩ <;> simp [h], false, rfl⟩)
  | unanswered a hi => exact .inr (.inr ⟨hi, true, rfl⟩)
  | halted | moved | loaded | popped | stored | pushed | emitted => exact .inr (.inl rfl)

theorem Effect.output_cases (h : Effect i s t) : t.output = s.output ∨
    (i.opcode = .writeb ∧ ∃ b, t.output = s.output ++ [.outByte b]) ∨
      (i.opcode = .writel ∧ ∃ w, t.output = s.output ++ [.outLong w]) := by
  cases h with
  | emitted e a hi =>
    obtain ⟨ho, b, rfl⟩ | ⟨ho, w, rfl⟩ := hi
    · exact .inr (.inl ⟨ho, b, rfl⟩)
    · exact .inr (.inr ⟨ho, w, rfl⟩)
  | halted | moved | loaded | popped | compared | computed | stored | pushed | received | unanswered => exact .inl rfl

theorem Effect.input_cases (h : Effect i s t) : t.input = s.input ∨
    (i.opcode = .readb ∧ ∃ b, s.input.readByte = some (b, t.input)) ∨
      (i.opcode = .readl ∧ ∃ w, s.input.readLong = some (w, t.input)) := by
  cases h with
  | received m input a _ hi => exact .inr hi
  | halted | moved | loaded | popped | compared | computed | stored | pushed | unanswered | emitted => exact .inl rfl

/-- Unless the instruction halts the core, the pc is where the instruction may leave it. -/
theorem Effect.pcAfter (h : Effect i s t) (hr : t.status = .running) : PcAfter i s t.pc := by
  cases h with
  | halted => cases hr
  | moved | loaded | popped | compared | computed | stored | pushed | received | unanswered | emitted => assumption

/-- An admitted store keeps the canonical form and the bound on the cells (20_memory.md R59). -/
theorem Stored.mem_inv {m : Memory} (h : Stored s m) (hw : s.mem.wf) (hb : ∀ c ∈ s.mem, c.1 < s.config.capacity.val) :
    m.wf ∧ ∀ c ∈ m, c.1 < s.config.capacity.val := by
  obtain ⟨a, b, h⟩ | ⟨a, w, h⟩ := h
  · exact State.storeByte_mem hw hb h
  · exact State.storeWord_mem hw hb h

/-! ### The end of a run, the pc past an instruction, and the reference launch -/

/-- A fault ends the run (60_exceptions.md R205): the status it writes is a terminal one, whatever `RegFieldFault` says. -/
theorem Trap.status_terminal (e : Trap) (c : Config) : (e.status c).terminal = true := by
  cases e with
  | badAddress | badInstruction => rfl
  | regFault =>
    unfold Trap.status
    cases c.regFieldFault <;> rfl

theorem State.raise_status_ne_running (s : State) (e : Trap) : (s.raise e).status ≠ .running := by
  intro h
  have ht := e.status_terminal s.config
  rw [State.raise_status] at h
  rw [h] at ht
  cases ht

/-- A core with a terminal status takes no step (10_state.md R32). -/
theorem not_steps_of_terminal {s : State} (hs : s.status.terminal = true) (t : State) : step s ≠ .next t := by
  intro h
  obtain ⟨hr, -⟩ := step_cases h
  rw [hr] at hs
  cases hs

/-- A run from a core with a terminal status goes nowhere. -/
theorem Reaches.eq_of_terminal {s t : State} (hs : s.status.terminal = true) (h : Reaches s t) : t = s := by
  induction h with
  | refl => rfl
  | tail _ hstep ih =>
    subst ih
    exact absurd hstep (not_steps_of_terminal hs _)

/-- Past an instruction that lies in memory the pc does not wrap, since Capacity is below 2^31 (10_state.md R30). -/
theorem State.pc_add_toNat {s : State} {n : Nat} (h : s.inBounds s.pc n = true) :
    (s.pc + BitVec.ofNat 32 n).toNat = s.pc.toNat + n := by
  have hb := (State.inBounds_iff s.pc n).1 h
  have hc := s.config.capacity.isLt
  rw [BitVec.toNat_add, BitVec.toNat_ofNat]
  omega

/-- A fetched instruction lies in memory (40_step.md R103). -/
theorem State.inBounds_of_fetch {s : State} {i : Instr} (h : s.fetch = .ok i) : s.inBounds s.pc i.opcode.length = true := by
  obtain ⟨op, -, hb, rfl⟩ := State.fetch_ok.1 h
  rwa [assemble_opcode]

/-- Every register of the reference launch is 0 (10_state.md R38). -/
theorem referenceRegs_get (r : Reg) : referenceRegs.get r = 0 := by
  cases r <;> rfl

/-- The reference launch is legal: nothing is written, and no two opcodes of the reference map share a byte. -/
theorem referenceLaunch_wf : referenceLaunch.wf :=
  ⟨Memory.wf_nil, fun _ hc => (List.not_mem_nil hc).elim, OpcodeMap.reference_wf⟩

end Sys2Proof.Machine
end

section
/-! SUPPORT. Noninterference of the flags (10_state.md R27): a rule that runs on two states alike but for the flags raises the same, or
completes in two states alike but for the flags. -/

namespace Sys2Proof.Machine

/-- `u` is `t` but for the flags. -/
def SameButFlags (t u : State) : Prop := u = t.setFlags u.flags

/-- Two rules that raise alike, or complete in states alike but for the flags. -/
inductive RulesAgree : Except Trap State → Except Trap State → Prop where
  | error (e : Trap) : RulesAgree (.error e) (.error e)
  | ok {t u : State} : SameButFlags t u → RulesAgree (.ok t) (.ok u)

variable {α : Type}

/-- Rules that begin with the same read of the state agree when what follows does. -/
theorem RulesAgree.bind (x : Except Trap α) {f g : α → Except Trap State} (h : ∀ a, RulesAgree (f a) (g a)) :
    RulesAgree (x >>= f) (x >>= g) := by
  cases x with
  | error e => exact .error e
  | ok a => exact h a

/-- Rules that begin with an update of each state agree when the updates do and what follows keeps it so. -/
theorem RulesAgree.andThen {x y : Except Trap State} {f g : State → Except Trap State} (h : RulesAgree x y)
    (hf : ∀ t u, SameButFlags t u → RulesAgree (f t) (g u)) : RulesAgree (x >>= f) (y >>= g) := by
  cases h with
  | error e => exact .error e
  | ok h => exact hf _ _ h

theorem RulesAgree.refl (x : Except Trap State) : RulesAgree x x := by
  cases x with
  | error e => exact .error e
  | ok t => exact .ok rfl

theorem SameButFlags.advance {t u : State} (h : SameButFlags t u) (n : Nat) : SameButFlags (t.advance n) (u.advance n) := by
  rw [h]
  rfl

theorem SameButFlags.setPc {t u : State} (h : SameButFlags t u) (a : Word) : SameButFlags (t.setPc a) (u.setPc a) := by
  rw [h]
  rfl

theorem SameButFlags.popInto {t u : State} (h : SameButFlags t u) (r : Reg) (v : Word) :
    SameButFlags (t.popInto r v) (u.popInto r v) := by
  rw [h]
  unfold State.popInto
  rw [State.setFlags_config]
  split <;> rfl

/-- What an answered read does after its store. -/
theorem SameButFlags.received {t u : State} (h : SameButFlags t u) (input : InState) :
    SameButFlags ((t.setInput input).setZF false) ((u.setInput input).setZF false) := by
  rw [h]
  rfl

variable (s : State) (f : Flags)

theorem State.storeByte_setFlags (a : Word) (b : Byte) : RulesAgree (s.storeByte a b) ((s.setFlags f).storeByte a b) := by
  unfold State.storeByte
  rw [State.setFlags_inBounds]
  split
  · exact .ok rfl
  · exact .error _

theorem State.storeWord_setFlags (a w : Word) : RulesAgree (s.storeWord a w) ((s.setFlags f).storeWord a w) := by
  unfold State.storeWord
  rw [State.setFlags_inBounds]
  split
  · exact .ok rfl
  · exact .error _

theorem State.push_setFlags (v : Word) : RulesAgree (s.push v) ((s.setFlags f).push v) :=
  (State.storeWord_setFlags s f _ v).andThen fun t u h => .ok (by rw [h]; rfl)

/-- A rule that pops goes on with the same word, from states alike but for the flags. -/
theorem RulesAgree.pop {g : Word → State → Except Trap State}
    (h : ∀ v t u, SameButFlags t u → RulesAgree (g v t) (g v u)) :
    RulesAgree (s.pop >>= fun p => g p.1 p.2) ((s.setFlags f).pop >>= fun p => g p.1 p.2) := by
  simp only [State.pop, bind_assoc, pure_bind]
  exact .bind (s.loadWord (s.readReg .SP)) fun v => h v _ _ rfl

/-- An ALU instruction writes all three flags, so its rule does not see the old ones. -/
theorem alu_setFlags (rA rB : RegField) (res : Word → Word → Word) (flags : Word → Word → Flags) (writes : Bool) :
    alu rA rB res flags writes (s.setFlags f) = alu rA rB res flags writes s := rfl

/-- A well-formed ALU instruction raises nothing, so its commit does not see the old flags either. -/
theorem commit_alu_setFlags {rA rB : RegField} (hA : namesRegister rA = true) (hB : namesRegister rB = true)
    (res : Word → Word → Word) (flags : Word → Word → Flags) (writes : Bool) :
    commit (s.setFlags f) (alu rA rB res flags writes (s.setFlags f)) = commit s (alu rA rB res flags writes s) := by
  obtain ⟨ra, ha⟩ := Option.isSome_iff_exists.1 ((regOfField_isSome rA).trans hA)
  obtain ⟨rb, hb⟩ := Option.isSome_iff_exists.1 ((regOfField_isSome rB).trans hB)
  rw [alu_setFlags, alu_ok ha hb, commit_ok, commit_ok]

/-- The next state of a well-formed ALU instruction does not depend on the flags. -/
theorem exec_setFlags_of_alu {i : Instr} (hi : i.opcode ∈ aluOps) (hw : i.wellFormed = true) :
    exec i (s.setFlags f) = exec i s := by
  cases i with
  | addl | subl | andl | xorl | mull | cmpl =>
    obtain ⟨hA, hB⟩ := Bool.and_eq_true_iff.1 hw
    exact commit_alu_setFlags s f hA hB _ _ _
  | _ => simp [Instr.opcode] at hi

/-- Rules that agree are committed to states alike but for the flags. -/
theorem RulesAgree.commit {r r' : Except Trap State} (h : RulesAgree r r') :
    ∃ t u, commit s r = .next t ∧ commit (s.setFlags f) r' = .next u ∧ SameButFlags t u := by
  cases h with
  | error e => exact ⟨_, _, rfl, rfl, rfl⟩
  | ok h => exact ⟨_, _, rfl, rfl, h⟩

/-- Whatever is no conditional jump runs alike from two states alike but for the flags. -/
theorem exec_setFlags {i : Instr} (hi : i.opcode ∉ [.jle, .jl, .je, .jne, .jge, .jg]) :
    ∃ t u, exec i s = .next t ∧ exec i (s.setFlags f) = .next u ∧ SameButFlags t u := by
  cases i with
  | jle | jl | je | jne | jge | jg => simp [Instr.opcode] at hi
  | nop | halt | jmp => exact ⟨_, _, rfl, rfl, rfl⟩
  | addl | subl | andl | xorl | mull | cmpl =>
    refine RulesAgree.commit s f ?_
    rw [alu_setFlags]
    exact .refl _
  | rrmovl rA rB =>
    exact RulesAgree.commit s f <| .bind (needReg rA) fun src => .bind (needReg rB) fun dst => .ok rfl
  | irmovl rA rB V =>
    exact RulesAgree.commit s f <| .bind (needNoReg rA) fun _ => .bind (needReg rB) fun dst => .ok rfl
  | rmmovl rA rB V =>
    exact RulesAgree.commit s f <| .bind (needReg rA) fun src => .bind (needReg rB) fun base =>
      (State.storeWord_setFlags s f _ _).andThen fun t u h => .ok (h.advance 6)
  | mrmovl rA rB V =>
    exact RulesAgree.commit s f <| .bind (needReg rA) fun dst => .bind (needReg rB) fun base =>
      .bind (s.loadWord (s.ea base V)) fun w => .ok rfl
  | call dest =>
    exact RulesAgree.commit s f <| (State.push_setFlags s f _).andThen fun t u h => .ok (h.setPc dest)
  | ret =>
    exact RulesAgree.commit s f <| .pop s f fun v t u h => .ok (h.setPc v)
  | pushl rA rB =>
    exact RulesAgree.commit s f <| .bind (needReg rA) fun r =>
      (State.push_setFlags s f _).andThen fun t u h => .ok (h.advance 2)
  | popl rA rB =>
    exact RulesAgree.commit s f <| .bind (needReg rA) fun r => .pop s f fun v t u h => .ok ((h.popInto r v).advance 2)
  | readb rA rB V =>
    refine RulesAgree.commit s f <| .bind (needReg rA) fun base => .bind (s.checkBounds (s.ea base V) 1) fun _ => ?_
    rw [State.setFlags_input]
    cases s.input.readByte with
    | none => exact .ok rfl
    | some p => exact (State.storeByte_setFlags s f _ _).andThen fun t u h => .ok ((h.received p.2).advance 6)
  | readl rA rB V =>
    refine RulesAgree.commit s f <| .bind (needReg rA) fun base => .bind (s.checkBounds (s.ea base V) 4) fun _ => ?_
    rw [State.setFlags_input]
    cases s.input.readLong with
    | none => exact .ok rfl
    | some p => exact (State.storeWord_setFlags s f _ _).andThen fun t u h => .ok ((h.received p.2).advance 6)
  | writeb rA rB V =>
    exact RulesAgree.commit s f <| .bind (needReg rA) fun base => .bind (s.loadByte (s.ea base V)) fun b => .ok rfl
  | writel rA rB V =>
    exact RulesAgree.commit s f <| .bind (needReg rA) fun base => .bind (s.loadWord (s.ea base V)) fun w => .ok rfl
  | movsbl rA rB V =>
    exact RulesAgree.commit s f <| .bind (needReg rA) fun ra => .bind (needReg rB) fun rb =>
      .bind (s.loadByte (s.ea (movsblRoles s.config.movsblFieldOrder ra rb).1 V)) fun b => .ok rfl

end Sys2Proof.Machine
end

section
/-! SUPPORT. The statements about the state (10_state.md), settled. -/

namespace Sys2Proof.Machine

/-- Settles O12: a step's memory is the old one or the old one after one admitted store, and the configuration is kept. -/
theorem stepKeepsInvariant : Obligations.StepKeepsInvariant := by
  unfold Obligations.StepKeepsInvariant
  intro s t ⟨hw, hb, ho⟩ h
  obtain ⟨e, rfl⟩ | ⟨i, -, he⟩ := step_effect h
  · exact ⟨hw, hb, ho⟩
  · rw [State.Inv, he.config_eq]
    obtain hm | hm := he.mem_cases
    · rw [hm]
      exact ⟨hw, hb, ho⟩
    · obtain ⟨hw', hb'⟩ := hm.mem_inv hw hb
      exact ⟨hw', hb', ho⟩

/-- Settles O13: no shape of a completed instruction writes the configuration, and no fault does. -/
theorem stepKeepsConfig : Obligations.StepKeepsConfig := by
  unfold Obligations.StepKeepsConfig
  intro s t h
  obtain ⟨e, rfl⟩ | ⟨i, -, he⟩ := step_effect h
  · rfl
  · exact he.config_eq

/-- Settles O16, by induction on the run: no step leaves a terminal state. -/
theorem terminalIsForever : Obligations.TerminalIsForever := by
  unfold Obligations.TerminalIsForever
  refine ⟨fun s hs => ⟨not_steps_of_terminal hs, fun t => Reaches.eq_of_terminal hs⟩, fun st => ?_, fun st => ?_⟩
  · cases st <;> decide
  · cases st <;> decide

/-- Settles O27: the instruction leaves the pc past itself, and it was fetched from inside memory. -/
theorem sequentialPc : Obligations.SequentialPc := by
  unfold Obligations.SequentialPc
  intro s t i h hr hf hi
  rw [step_of_fetch_ok (step_cases h).1 hf] at h
  obtain ⟨e, rfl⟩ | he := exec_effect h
  · exact absurd hr (State.raise_status_ne_running s e)
  · rw [he.pcAfter hr hi, State.pc_add_toNat (State.inBounds_of_fetch hf)]

/-- Settles O30, by the shapes of a completed instruction. -/
theorem registerWriters : Obligations.RegisterWriters := by
  unfold Obligations.RegisterWriters
  intro i s t h
  obtain ⟨e, rfl⟩ | he := exec_effect h
  · exact fun _ _ => rfl
  · exact he.regsKept

/-- Settles O31: who is no ALU instruction keeps the flags, or is a read and changes ZF alone. -/
theorem flagWriters : Obligations.FlagWriters := by
  unfold Obligations.FlagWriters
  intro i s t h hi
  obtain ⟨e, rfl⟩ | he := exec_effect h
  · exact ⟨rfl, rfl, fun _ => rfl⟩
  · obtain ha | hf | ⟨hread, z, hf⟩ := he.flags_cases
    · exact absurd ha hi
    · rw [hf]
      exact ⟨rfl, rfl, fun _ => rfl⟩
    · rw [hf]
      exact ⟨rfl, rfl, fun hn => absurd hread hn⟩

/-- Settles O32: the rules of two states alike but for the flags agree, and a well-formed ALU instruction writes all three. -/
theorem flagReaders : Obligations.FlagReaders := by
  unfold Obligations.FlagReaders
  intro i s f hi
  obtain ⟨t, u, ht, hu, htu⟩ := exec_setFlags s f hi
  refine ⟨t, u, ht, hu, htu, fun ha hw => ?_⟩
  rw [exec_setFlags_of_alu s f ha hw, ht] at hu
  cases hu
  rfl

/-- Settles O33, by the shapes of a completed instruction. -/
theorem outputOnlyGrows : Obligations.OutputOnlyGrows := by
  unfold Obligations.OutputOnlyGrows
  intro s t h
  obtain ⟨e, rfl⟩ | ⟨i, hf, he⟩ := step_effect h
  · exact .inl rfl
  · exact he.output_cases.imp_right fun ho => ⟨i, hf, ho⟩

/-- Settles O34, by the shapes of a completed instruction. -/
theorem inputOnlyRead : Obligations.InputOnlyRead := by
  unfold Obligations.InputOnlyRead
  intro s t h
  obtain ⟨e, rfl⟩ | ⟨i, hf, he⟩ := step_effect h
  · exact .inl rfl
  · exact he.input_cases.imp_right fun hin => ⟨i, hf, hin⟩

/-- Settles O9: the launch copies its parameters, and a legal launch is one whose image and opcode map meet the invariant. -/
theorem launchState : Obligations.LaunchState := by
  unfold Obligations.LaunchState
  exact fun l => ⟨rfl, rfl, fun _ => rfl, rfl, fun _ => rfl, rfl, rfl, rfl, id⟩

/-- Settles O10: the reset state is the launch with the reference parameters. -/
theorem resetState : Obligations.ResetState := by
  unfold Obligations.ResetState
  exact ⟨rfl, rfl, fun _ => rfl, referenceRegs_get, rfl, rfl, rfl, rfl, rfl, rfl, rfl, rfl⟩

/-- Settles O11: reset is a legal launch. -/
theorem resetMeetsInvariant : Obligations.ResetMeetsInvariant := by
  unfold Obligations.ResetMeetsInvariant
  exact referenceLaunch_wf

end Sys2Proof.Machine
end

section
/-! SUPPORT. Reasoning rules for the memory image seen from the state: what a load answers and what a store leaves behind, byte by byte
(20_memory.md R51 to R59), and how the rule of an instruction that runs is peeled apart. -/

namespace Sys2Proof.Machine

variable {s t : State}

/-! ### Addresses -/

/-- The bound check as 20_memory.md R51 writes it, in exact signed integers. -/
theorem State.inBounds_iff_toInt (s : State) (a : Word) (n : Nat) :
    s.inBounds a n = true ↔ 0 ≤ a.toInt ∧ a.toInt + n ≤ s.config.capacity.val := by
  simp [State.inBounds]

theorem State.inBounds_false_iff_toInt (s : State) (a : Word) (n : Nat) :
    s.inBounds a n = false ↔ ¬(0 ≤ a.toInt ∧ a.toInt + n ≤ s.config.capacity.val) := by
  rw [← State.inBounds_iff_toInt, Bool.not_eq_true]

/-- Inside an admitted access no address wraps, since Capacity is below 2^31 (10_state.md R34). -/
theorem State.add_toNat_of_inBounds {a : Word} {n k : Nat} (h : s.inBounds a n = true) (hk : k ≤ n) :
    (a + BitVec.ofNat 32 k).toNat = a.toNat + k := by
  have hb := (State.inBounds_iff a n).1 h
  have hc := s.config.capacity.isLt
  rw [BitVec.toNat_add, BitVec.toNat_ofNat]
  omega

/-! ### Consecutive bytes -/

/-- The bytes written are read back. -/
theorem State.byteAt_writeBytes (hw : s.mem.wf) (a : Nat) {bs : List Byte} {k : Nat} (hk : k < bs.length) :
    (s.setMem (s.mem.writeBytes a bs)).byteAt (a + k) = bs.getD k 0 := by
  rw [State.setMem_byteAt, Memory.read_writeBytes bs hw, if_pos ⟨by omega, by omega⟩, Nat.add_sub_cancel_left]

/-- The bytes beside those written are kept. -/
theorem State.memKept_writeBytes (hw : s.mem.wf) (a : Nat) (bs : List Byte) :
    MemKept s (s.setMem (s.mem.writeBytes a bs)) a bs.length := by
  intro k hk
  rw [State.setMem_byteAt, Memory.read_writeBytes bs hw, if_neg (by omega)]
  rfl

/-! ### Words in memory -/

/-- Four bytes hold a word exactly when the word is their `LE32` (20_memory.md R54, R55). -/
theorem holdsWord_iff {a : Nat} {w : Word} :
    HoldsWord s a w ↔ w = le32 (s.byteAt a) (s.byteAt (a + 1)) (s.byteAt (a + 2)) (s.byteAt (a + 3)) := by
  constructor
  · intro h
    rw [← le32_extract w]
    exact congr (congr (congrArg₂ le32 (h 0 (by omega)).symm (h 1 (by omega)).symm) (h 2 (by omega)).symm)
      (h 3 (by omega)).symm
  · rintro rfl k hk
    have hb := le32Bytes_le32 (s.byteAt a) (s.byteAt (a + 1)) (s.byteAt (a + 2)) (s.byteAt (a + 3))
    simp only [le32Bytes, List.cons.injEq, and_true] at hb
    obtain ⟨h0, h1, h2, h3⟩ := hb
    match k, hk with
    | 0, _ => exact h0.symm
    | 1, _ => exact h1.symm
    | 2, _ => exact h2.symm
    | 3, _ => exact h3.symm

/-- A 4-byte load answers the word its four bytes hold (20_memory.md R58). -/
theorem State.loadWord_ok_iff_holdsWord {a w : Word} :
    s.loadWord a = .ok w ↔ s.inBounds a 4 = true ∧ HoldsWord s a.toNat w := by
  rw [State.loadWord_ok, holdsWord_iff]

theorem State.storeByte_byteAt (hw : s.mem.wf) {a : Word} {b : Byte} (h : s.storeByte a b = .ok t) :
    t.byteAt a.toNat = b := by
  obtain ⟨-, rfl⟩ := State.storeByte_ok.1 h
  exact State.byteAt_writeBytes (bs := [b]) (k := 0) hw a.toNat Nat.one_pos

theorem State.storeByte_memKept (hw : s.mem.wf) {a : Word} {b : Byte} (h : s.storeByte a b = .ok t) :
    MemKept s t a.toNat 1 := by
  obtain ⟨-, rfl⟩ := State.storeByte_ok.1 h
  exact State.memKept_writeBytes hw a.toNat [b]

theorem State.storeWord_holdsWord (hw : s.mem.wf) {a w : Word} (h : s.storeWord a w = .ok t) :
    HoldsWord t a.toNat w := by
  obtain ⟨-, rfl⟩ := State.storeWord_ok.1 h
  intro k hk
  rw [State.byteAt_writeBytes (bs := le32Bytes w) hw a.toNat hk]
  match k, hk with
  | 0, _ | 1, _ | 2, _ | 3, _ => rfl

theorem State.storeWord_memKept (hw : s.mem.wf) {a w : Word} (h : s.storeWord a w = .ok t) :
    MemKept s t a.toNat 4 := by
  obtain ⟨-, rfl⟩ := State.storeWord_ok.1 h
  exact State.memKept_writeBytes hw a.toNat (le32Bytes w)

theorem State.push_memKept (hw : s.mem.wf) {v : Word} (h : s.push v = .ok t) : MemKept s t s.pushAddr.toNat 4 := by
  obtain ⟨-, rfl⟩ := State.push_ok.1 h
  exact State.memKept_writeBytes hw s.pushAddr.toNat (le32Bytes v)

/-- A word stored is the word loaded from its address (20_memory.md R57). -/
theorem State.loadWord_storeWord (hw : s.mem.wf) {a w : Word} (h : s.storeWord a w = .ok t) : t.loadWord a = .ok w := by
  obtain ⟨hin, ht⟩ := State.storeWord_ok.1 h
  exact State.loadWord_ok_iff_holdsWord.2 ⟨by rwa [ht], State.storeWord_holdsWord hw h⟩

/-! ### Peeling an instruction that runs -/

variable {α β : Type}

/-- A rule goes on with what its first part answers. -/
theorem bind_of_ok {x : Except Trap α} {a : α} (h : x = .ok a) (f : α → Except Trap β) : (x >>= f) = f a := by
  rw [h]
  rfl

/-- A rule ends where its first part raises. -/
theorem bind_of_error {x : Except Trap α} {e : Trap} (h : x = .error e) (f : α → Except Trap β) :
    (x >>= f) = .error e := by
  rw [h]
  rfl

/-- A field that names a register passes its check (30_encoding.md R89). -/
theorem needReg_bind {f : RegField} {r : Reg} (h : regOfField f = some r) (g : Reg → Except Trap β) :
    (needReg f >>= g) = g r :=
  bind_of_ok (needReg_ok.2 h) g

/-- A rule that completes is committed as its own next state (40_step.md R106). -/
theorem commit_of_ok {x : Except Trap State} (h : x = .ok t) : commit s x = .next t := by
  rw [h]
  rfl

/-- A rule that raises BadAddress is committed as the status alone (60_exceptions.md R205). -/
theorem commit_of_badAddress {x : Except Trap State} (h : x = .error .badAddress) :
    commit s x = .next (s.setStatus .badAddress) := by
  rw [h]
  rfl

end Sys2Proof.Machine
end

section
/-! SUPPORT. The bytes an instruction leaves alone, and what an instruction does whose data access is not admitted
(20_memory.md R51, R60). -/

namespace Sys2Proof.Machine

variable {i : Instr} {s t : State}

/-! ### The bytes an instruction leaves alone -/

theorem AluCompleted.mem_eq {rA rB : RegField} {res : Word → Word → Word} {flags : Word → Word → Flags} {writes : Bool}
    (h : AluCompleted rA rB res flags writes s t) : t.mem = s.mem := by
  obtain ⟨ra, rb, -, -, rfl⟩ := h
  cases writes <;> rfl

/-- A completed instruction keeps every byte outside its store. -/
theorem Completed.byteAt_eq (h : Completed i s t) (hw : s.mem.wf) {a : Nat}
    (ha : ∀ base n, storeSpan i s = some (base, n) → a < base.toNat ∨ base.toNat + n ≤ a) : t.byteAt a = s.byteAt a := by
  cases i with
  | nop | halt | jmp => rw [h]; rfl
  | jle | jl | je | jne | jge | jg => rw [h, State.jumpIf_eq_setPc]; rfl
  | addl | subl | andl | xorl | mull | cmpl => exact congrArg (Memory.read · a) (AluCompleted.mem_eq h)
  | irmovl =>
    obtain ⟨dst, -, -, rfl⟩ := h
    rfl
  | rrmovl | writeb | writel =>
    obtain ⟨x, y, -, -, rfl⟩ := h
    rfl
  | mrmovl | movsbl =>
    obtain ⟨x, y, z, -, -, -, rfl⟩ := h
    rfl
  | ret =>
    obtain ⟨v, u, hu, rfl⟩ := h
    obtain ⟨-, rfl⟩ := State.pop_ok.1 hu
    rfl
  | popl =>
    obtain ⟨r, v, u, -, hu, rfl⟩ := h
    obtain ⟨-, rfl⟩ := State.pop_ok.1 hu
    rw [State.popInto_eq_writeReg]
    rfl
  | rmmovl =>
    obtain ⟨src, base, u, -, hb, hu, rfl⟩ := h
    exact State.storeWord_memKept hw hu a (ha _ _ (by rw [storeSpan, hb]; rfl))
  | call =>
    obtain ⟨u, hu, rfl⟩ := h
    exact State.push_memKept hw hu a (ha _ _ rfl)
  | pushl =>
    obtain ⟨r, u, -, hu, rfl⟩ := h
    exact State.push_memKept hw hu a (ha _ _ rfl)
  | readb =>
    obtain ⟨base, hb, -, ⟨b, input, u, -, hu, rfl⟩ | ⟨-, rfl⟩⟩ := h
    · exact State.storeByte_memKept hw hu a (ha _ _ (by rw [storeSpan, hb]; rfl))
    · rfl
  | readl =>
    obtain ⟨base, hb, -, ⟨w, input, u, -, hu, rfl⟩ | ⟨-, rfl⟩⟩ := h
    · exact State.storeWord_memKept hw hu a (ha _ _ (by rw [storeSpan, hb]; rfl))
    · rfl

/-! ### The data access of an instruction -/

/-- MOVSBL reads at its base, which the field order names (47_movsbl.md R180). -/
theorem accessSpan_movsbl {rA rB : RegField} {ra rb : Reg} (hA : regOfField rA = some ra) (hB : regOfField rB = some rb)
    (s : State) (V : Word) : accessSpan (.movsbl rA rB V) s =
      some (s.ea (movsblRoles s.config.movsblFieldOrder ra rb).1 V, 1) := by
  unfold accessSpan
  cases s.config.movsblFieldOrder <;> simp [movsblRoles, hA, hB]

theorem regOfField_of_namesRegister {f : RegField} (h : namesRegister f = true) : ∃ r, regOfField f = some r :=
  Option.isSome_iff_exists.1 ((regOfField_isSome f).trans h)

/-- A well-formed instruction whose data access is not admitted raises BadAddress before it writes anything. -/
theorem exec_of_access_outside {a : Word} {n : Nat} (hi : i.wellFormed = true) (ha : accessSpan i s = some (a, n))
    (hout : s.inBounds a n = false) : exec i s = .next (s.setStatus .badAddress) := by
  cases i with
  | nop | halt | rrmovl | irmovl | addl | subl | andl | xorl | mull | cmpl | jmp | jle | jl | je | jne | jge | jg => cases ha
  | rmmovl rA rB V =>
    obtain ⟨src, hA⟩ := regOfField_of_namesRegister (Bool.and_eq_true_iff.1 hi).1
    obtain ⟨base, hB, rfl, rfl⟩ := Option.map_eq_some_iff.1 ha
    exact commit_of_badAddress <| (needReg_bind hA _).trans <| (needReg_bind hB _).trans <|
      bind_of_error (State.storeWord_error.2 ⟨hout, rfl⟩) _
  | mrmovl rA rB V =>
    obtain ⟨dst, hA⟩ := regOfField_of_namesRegister (Bool.and_eq_true_iff.1 hi).1
    obtain ⟨base, hB, rfl, rfl⟩ := Option.map_eq_some_iff.1 ha
    exact commit_of_badAddress <| (needReg_bind hA _).trans <| (needReg_bind hB _).trans <|
      bind_of_error (State.loadWord_error.2 ⟨hout, rfl⟩) _
  | movsbl rA rB V =>
    obtain ⟨ra, hA⟩ := regOfField_of_namesRegister (Bool.and_eq_true_iff.1 hi).1
    obtain ⟨rb, hB⟩ := regOfField_of_namesRegister (Bool.and_eq_true_iff.1 hi).2
    rw [accessSpan_movsbl hA hB] at ha
    cases ha
    exact commit_of_badAddress <| (needReg_bind hA _).trans <| (needReg_bind hB _).trans <|
      bind_of_error (State.loadByte_error.2 ⟨hout, rfl⟩) _
  | call dest =>
    cases ha
    exact commit_of_badAddress <| bind_of_error (State.push_error.2 ⟨hout, rfl⟩) _
  | ret =>
    cases ha
    exact commit_of_badAddress <| bind_of_error (State.pop_error.2 ⟨hout, rfl⟩) _
  | pushl rA rB =>
    obtain ⟨r, hA⟩ := regOfField_of_namesRegister hi
    cases ha
    exact commit_of_badAddress <| (needReg_bind hA _).trans <| bind_of_error (State.push_error.2 ⟨hout, rfl⟩) _
  | popl rA rB =>
    obtain ⟨r, hA⟩ := regOfField_of_namesRegister hi
    cases ha
    exact commit_of_badAddress <| (needReg_bind hA _).trans <| bind_of_error (State.pop_error.2 ⟨hout, rfl⟩) _
  | readb rA rB V | readl rA rB V =>
    obtain ⟨base, hA, rfl, rfl⟩ := Option.map_eq_some_iff.1 ha
    exact commit_of_badAddress <| (needReg_bind hA _).trans <| bind_of_error (State.checkBounds_error.2 ⟨hout, rfl⟩) _
  | writeb rA rB V =>
    obtain ⟨base, hA, rfl, rfl⟩ := Option.map_eq_some_iff.1 ha
    exact commit_of_badAddress <| (needReg_bind hA _).trans <| bind_of_error (State.loadByte_error.2 ⟨hout, rfl⟩) _
  | writel rA rB V =>
    obtain ⟨base, hA, rfl, rfl⟩ := Option.map_eq_some_iff.1 ha
    exact commit_of_badAddress <| (needReg_bind hA _).trans <| bind_of_error (State.loadWord_error.2 ⟨hout, rfl⟩) _

end Sys2Proof.Machine
end

section
/-! SUPPORT. Noninterference of memory (20_memory.md R60): a rule that runs on two states alike but for memory, which agree on the bytes
of its data access, raises the same or completes in two states alike but for memory. -/

namespace Sys2Proof.Machine

/-- `u` is `t` but for memory. -/
def SameButMem (t u : State) : Prop := u = t.setMem u.mem

/-- Two rules that raise alike, or complete in states alike but for memory. -/
inductive RulesAgreeButMem : Except Trap State → Except Trap State → Prop where
  | error (e : Trap) : RulesAgreeButMem (.error e) (.error e)
  | ok {t u : State} : SameButMem t u → RulesAgreeButMem (.ok t) (.ok u)

/-- An update that neither reads nor writes memory keeps two states alike. -/
theorem SameButMem.map {t u : State} (h : SameButMem t u) {F : State → State} (hF : ∀ t m, F (t.setMem m) = (F t).setMem m) :
    SameButMem (F t) (F u) := by
  rw [h, hF]
  rfl

theorem State.popInto_setMem (r : Reg) (v : Word) (t : State) (m : Memory) :
    (t.setMem m).popInto r v = (t.popInto r v).setMem m := by
  rw [State.popInto_eq_writeReg, State.popInto_eq_writeReg]
  rfl

namespace RulesAgreeButMem

variable {α : Type}

/-- Rules that begin with the same read of the state agree when what follows does. -/
theorem bind {x y : Except Trap α} {f g : α → Except Trap State} (hx : y = x)
    (h : ∀ a, x = .ok a → RulesAgreeButMem (f a) (g a)) : RulesAgreeButMem (x >>= f) (y >>= g) := by
  subst hx
  cases y with
  | error e => exact .error e
  | ok a => exact h a rfl

/-- Rules that begin with an update of each state agree when the updates do and what follows keeps it so. -/
theorem map {x y : Except Trap State} (h : RulesAgreeButMem x y) {F : State → State}
    (hF : ∀ t m, F (t.setMem m) = (F t).setMem m) :
    RulesAgreeButMem (x >>= fun t => pure (F t)) (y >>= fun t => pure (F t)) := by
  cases h with
  | error e => exact .error e
  | ok h => exact .ok (h.map hF)

variable (s : State) (m : Memory)

theorem storeByte (a : Word) (b : Byte) : RulesAgreeButMem (s.storeByte a b) ((s.setMem m).storeByte a b) := by
  unfold State.storeByte
  rw [State.setMem_inBounds]
  split
  · exact .ok rfl
  · exact .error _

theorem storeWord (a w : Word) : RulesAgreeButMem (s.storeWord a w) ((s.setMem m).storeWord a w) := by
  unfold State.storeWord
  rw [State.setMem_inBounds]
  split
  · exact .ok rfl
  · exact .error _

theorem push (v : Word) : RulesAgreeButMem (s.push v) ((s.setMem m).push v) :=
  (storeWord s m s.pushAddr v).map (F := (·.writeReg .SP s.pushAddr)) fun _ _ => rfl

theorem alu (rA rB : RegField) (res : Word → Word → Word) (flags : Word → Word → Flags) (writes : Bool) :
    RulesAgreeButMem (alu rA rB res flags writes s) (alu rA rB res flags writes (s.setMem m)) :=
  .bind rfl fun ra _ => .bind rfl fun rb _ => .ok (by cases writes <;> rfl)

variable {s m}

/-- Rules that agree are committed to states alike but for memory. -/
theorem commit {x y : Except Trap State} (h : RulesAgreeButMem x y) :
    ∃ t u, commit s x = .next t ∧ commit (s.setMem m) y = .next u ∧ SameButMem t u := by
  cases h with
  | error e => exact ⟨_, _, rfl, rfl, rfl⟩
  | ok h => exact ⟨_, _, rfl, rfl, h⟩

end RulesAgreeButMem

/-! ### Loads from memories that agree -/

/-- The memory `m` agrees with that of `s` on the data access of `i`. -/
def AgreesOnAccess (i : Instr) (s : State) (m : Memory) : Prop :=
  ∀ a n, accessSpan i s = some (a, n) → ∀ k, k < n → m.read (a.toNat + k) = s.byteAt (a.toNat + k)

namespace AgreesOnAccess

variable {i : Instr} {s : State} {m : Memory} {a : Word}

theorem loadByte (h : AgreesOnAccess i s m) (ha : accessSpan i s = some (a, 1)) : (s.setMem m).loadByte a = s.loadByte a := by
  have h0 : m.read a.toNat = s.byteAt a.toNat := h a 1 ha 0 Nat.one_pos
  simp only [State.loadByte, State.setMem_inBounds, State.setMem_byteAt, h0]

theorem loadWord (h : AgreesOnAccess i s m) (ha : accessSpan i s = some (a, 4)) : (s.setMem m).loadWord a = s.loadWord a := by
  have hk := h a 4 ha
  have h0 : m.read a.toNat = s.byteAt a.toNat := hk 0 (by decide)
  simp only [State.loadWord, State.setMem_inBounds, State.setMem_byteAt, h0, hk 1 (by decide), hk 2 (by decide),
    hk 3 (by decide)]

/-- A rule that pops goes on with the same word, from states alike but for memory. -/
theorem pop (h : AgreesOnAccess i s m) (ha : accessSpan i s = some (s.readReg .SP, 4)) {F : Word → State → State}
    (hF : ∀ v t m, F v (t.setMem m) = (F v t).setMem m) :
    RulesAgreeButMem (s.pop >>= fun p => pure (F p.1 p.2)) ((s.setMem m).pop >>= fun p => pure (F p.1 p.2)) := by
  simp only [State.pop, bind_assoc, pure_bind]
  have hsp : SameButMem (s.writeReg .SP (s.readReg .SP + 4)) ((s.setMem m).writeReg .SP (s.readReg .SP + 4)) := rfl
  exact .bind (h.loadWord ha) fun v _ => .ok (hsp.map (hF v))

end AgreesOnAccess

/-- An instruction runs alike on two memories that agree on its data access. -/
theorem exec_setMem {i : Instr} {s : State} {m : Memory} (hm : AgreesOnAccess i s m) :
    ∃ t u, exec i s = .next t ∧ exec i (s.setMem m) = .next u ∧ SameButMem t u := by
  cases i with
  | nop | halt | jmp => exact ⟨_, _, rfl, rfl, rfl⟩
  | jle | jl | je | jne | jge | jg =>
    refine RulesAgreeButMem.commit (s := s) (m := m) (.ok ?_)
    rw [State.jumpIf_eq_setPc, State.jumpIf_eq_setPc]
    rfl
  | addl | subl | andl | xorl | mull | cmpl => exact (RulesAgreeButMem.alu s m _ _ _ _ _).commit
  | rrmovl rA rB => exact RulesAgreeButMem.commit <| .bind rfl fun src _ => .bind rfl fun dst _ => .ok rfl
  | irmovl rA rB V => exact RulesAgreeButMem.commit <| .bind rfl fun _ _ => .bind rfl fun dst _ => .ok rfl
  | rmmovl rA rB V =>
    exact RulesAgreeButMem.commit <| .bind rfl fun src _ => .bind rfl fun base _ =>
      (RulesAgreeButMem.storeWord s m _ _).map fun _ _ => rfl
  | mrmovl rA rB V =>
    refine RulesAgreeButMem.commit <| .bind rfl fun dst _ => .bind rfl fun base hb => ?_
    exact .bind (hm.loadWord (by rw [accessSpan, needReg_ok.1 hb]; rfl)) fun w _ => .ok rfl
  | call dest => exact RulesAgreeButMem.commit <| (RulesAgreeButMem.push s m _).map fun _ _ => rfl
  | ret => exact RulesAgreeButMem.commit <| hm.pop (F := fun v t => t.setPc v) rfl fun _ _ _ => rfl
  | pushl rA rB =>
    exact RulesAgreeButMem.commit <| .bind rfl fun r _ => (RulesAgreeButMem.push s m _).map fun _ _ => rfl
  | popl rA rB =>
    exact RulesAgreeButMem.commit <| .bind rfl fun r _ =>
      hm.pop (F := fun v t => (t.popInto r v).advance 2) rfl fun v t m => by rw [State.popInto_setMem]; rfl
  | readb rA rB V =>
    refine RulesAgreeButMem.commit <| .bind rfl fun base _ => .bind rfl fun _ _ => ?_
    rw [State.setMem_input]
    cases s.input.readByte with
    | none => exact .ok rfl
    | some p => exact (RulesAgreeButMem.storeByte s m _ _).map fun _ _ => rfl
  | readl rA rB V =>
    refine RulesAgreeButMem.commit <| .bind rfl fun base _ => .bind rfl fun _ _ => ?_
    rw [State.setMem_input]
    cases s.input.readLong with
    | none => exact .ok rfl
    | some p => exact (RulesAgreeButMem.storeWord s m _ _).map fun _ _ => rfl
  | writeb rA rB V =>
    refine RulesAgreeButMem.commit <| .bind rfl fun base hb => ?_
    exact .bind (hm.loadByte (by rw [accessSpan, needReg_ok.1 hb]; rfl)) fun b _ => .ok rfl
  | writel rA rB V =>
    refine RulesAgreeButMem.commit <| .bind rfl fun base hb => ?_
    exact .bind (hm.loadWord (by rw [accessSpan, needReg_ok.1 hb]; rfl)) fun w _ => .ok rfl
  | movsbl rA rB V =>
    refine RulesAgreeButMem.commit <| .bind rfl fun ra ha => .bind rfl fun rb hb => ?_
    exact .bind (hm.loadByte (accessSpan_movsbl (needReg_ok.1 ha) (needReg_ok.1 hb) s V)) fun b _ => .ok rfl

end Sys2Proof.Machine
end

section
/-! SUPPORT. The code in memory is the code that runs (20_memory.md R67), and what is pushed is what is popped (20_memory.md R69). -/

namespace Sys2Proof.Laws.Encoding

/-- The facts of the encoding hold of every instruction. -/
theorem statement : ∀ i : Instr, Statement i
  | .nop => nop
  | .halt => halt
  | .rrmovl rA rB => rrmovl rA rB
  | .irmovl rA rB V => irmovl rA rB V
  | .rmmovl rA rB V => rmmovl rA rB V
  | .mrmovl rA rB V => mrmovl rA rB V
  | .addl rA rB => addl rA rB
  | .subl rA rB => subl rA rB
  | .andl rA rB => andl rA rB
  | .xorl rA rB => xorl rA rB
  | .mull rA rB => mull rA rB
  | .cmpl rA rB => cmpl rA rB
  | .jmp dest => jmp dest
  | .jle dest => jle dest
  | .jl dest => jl dest
  | .je dest => je dest
  | .jne dest => jne dest
  | .jge dest => jge dest
  | .jg dest => jg dest
  | .call dest => call dest
  | .ret => ret
  | .pushl rA rB => pushl rA rB
  | .popl rA rB => popl rA rB
  | .readb rA rB V => readb rA rB V
  | .readl rA rB V => readl rA rB V
  | .writeb rA rB V => writeb rA rB V
  | .writel rA rB V => writel rA rB V
  | .movsbl rA rB V => movsbl rA rB V

end Sys2Proof.Laws.Encoding

namespace Sys2Proof.Machine

variable {s t : State}

/-! ### Code in memory -/

/-- A fetch answers the instruction whose encoding lies at the pc (40_step.md R101 to R103). -/
theorem State.fetch_of_encoded {i : Instr} (hm : s.config.opcodes.wf) (hin : s.inBounds s.pc i.opcode.length = true)
    (hcode : ∀ k, k < i.opcode.length → s.byteAt (s.pc.toNat + k) = (encode s.config.opcodes i).getD k 0) :
    s.fetch = .ok i := by
  obtain ⟨-, -, hfields⟩ := Laws.Encoding.statement i s.config.opcodes []
  have hbyte : s.byteAt s.pc.toNat = s.config.opcodes.byteOf i.opcode := hcode 0 (Opcode.length_pos i.opcode)
  refine State.fetch_ok.2 ⟨i.opcode, ?_, hin, ?_⟩
  · rw [hbyte, OpcodeMap.opcodeOf_byteOf hm]
  · rw [assemble_congr i.opcode hcode]
    rw [List.append_nil] at hfields
    exact hfields.symm

/-! ### The stack -/

/-- An admitted push stores and moves SP, and keeps everything else. -/
theorem State.push_of_inBounds (h : s.inBounds s.pushAddr 4 = true) (v : Word) :
    ∃ m, s.push v = .ok ((s.setMem m).writeReg .SP s.pushAddr) :=
  ⟨_, State.push_ok.2 ⟨h, rfl⟩⟩

/-- SP after a push, and after the pop that follows it. -/
theorem State.pushAddr_add_four (s : State) : s.pushAddr + 4 = s.readReg .SP := BitVec.sub_add_cancel _ _

/-- The word a push has stored is the one at SP. -/
theorem State.loadWord_push (hw : s.mem.wf) {v : Word} (h : s.push v = .ok t) : t.loadWord (t.readReg .SP) = .ok v := by
  obtain ⟨hin, rfl⟩ := State.push_ok.1 h
  rw [State.readReg_writeReg_same]
  have hst := (State.storeWord_ok (w := v)).2 ⟨hin, rfl⟩
  have hload := State.loadWord_storeWord hw hst
  exact hload

/-- What POPL makes of the word PUSHL stored is the register's old value, under both values of `SPSelfMode` (45_call_stack.md R163). -/
theorem State.popInto_pushValue (s t : State) (r : Reg) (hc : t.config = s.config) :
    t.popInto r (s.pushValue r) = t.writeReg r (s.readReg r) := by
  unfold State.popInto State.pushValue
  rw [hc]
  split
  next h => rw [State.pushAddr_add_four, h.1]
  next h => rfl

theorem exec_pushl_of_push {rA rB : RegField} {r : Reg} (hr : regOfField rA = some r)
    (h : s.push (s.pushValue r) = .ok t) : exec (.pushl rA rB) s = .next (t.advance 2) :=
  commit_of_ok <| (needReg_bind hr _).trans (bind_of_ok h _)

theorem exec_popl_of_load {rA rB : RegField} {r : Reg} {v : Word} (hr : regOfField rA = some r)
    (h : s.loadWord (s.readReg .SP) = .ok v) :
    exec (.popl rA rB) s = .next (((s.writeReg .SP (s.readReg .SP + 4)).popInto r v).advance 2) := by
  have hpop := State.pop_ok.2 ⟨h, rfl⟩
  exact commit_of_ok <| (needReg_bind hr _).trans (bind_of_ok hpop _)

/-- POPL of the word that PUSHL of the same register stored gives the register its old value. -/
theorem exec_popl_of_pushValue {rA rB : RegField} {r : Reg} (hr : regOfField rA = some r) (hc : t.config = s.config)
    (h : t.loadWord (t.readReg .SP) = .ok (s.pushValue r)) :
    exec (.popl rA rB) t = .next (((t.writeReg .SP (t.readReg .SP + 4)).writeReg r (s.readReg r)).advance 2) := by
  rw [exec_popl_of_load hr h, State.popInto_pushValue s (t.writeReg .SP (t.readReg .SP + 4)) r hc]

/-- Writing SP and the popped register back to their old values leaves the register file as it was. -/
theorem State.regsKept_restored (s : State) (m : Memory) (p : Word) (r : Reg) :
    RegsKept s ((((s.setMem m).writeReg .SP p).writeReg .SP (s.readReg .SP)).writeReg r (s.readReg r)) [] := by
  intro q _
  by_cases hr : q = r
  · simp [hr]
  · by_cases hsp : q = .SP
    · subst hsp
      simp [hr]
    · simp [hr, hsp]

end Sys2Proof.Machine
end

section
/-! SUPPORT. The statements about memory (20_memory.md), settled. -/

namespace Sys2Proof.Machine

/-- Settles O6: the signed bound decides between BadAddress and the bytes at the address. -/
theorem loadsReadTheImage : Obligations.LoadsReadTheImage := by
  unfold Obligations.LoadsReadTheImage
  intro s a
  refine ⟨fun h => ?_, fun h => ?_, fun h => ?_, fun h => ?_⟩
  · exact State.loadByte_error.2 ⟨(s.inBounds_false_iff_toInt a 1).2 h, rfl⟩
  · exact State.loadByte_ok.2 ⟨(s.inBounds_iff_toInt a 1).2 h, rfl⟩
  · exact State.loadWord_error.2 ⟨(s.inBounds_false_iff_toInt a 4).2 h, rfl⟩
  · have hload := State.loadWord_ok.2 ⟨(s.inBounds_iff_toInt a 4).2 h, rfl⟩
    exact ⟨_, hload, (State.loadWord_ok_iff_holdsWord.1 hload).2⟩

/-- Settles O7: an admitted store writes consecutive bytes, and any other raises before it writes. -/
theorem storesWriteTheImage : Obligations.StoresWriteTheImage := by
  unfold Obligations.StoresWriteTheImage
  intro s hw a b w
  refine ⟨fun h => ?_, fun h => ?_, fun h => ?_, fun h => ?_⟩
  · exact State.storeByte_error.2 ⟨(s.inBounds_false_iff_toInt a 1).2 h, rfl⟩
  · have hst := (State.storeByte_ok (b := b)).2 ⟨(s.inBounds_iff_toInt a 1).2 h, rfl⟩
    exact ⟨_, hst, Memory.wf_writeBytes _ hw _, State.storeByte_byteAt hw hst, State.storeByte_memKept hw hst⟩
  · exact State.storeWord_error.2 ⟨(s.inBounds_false_iff_toInt a 4).2 h, rfl⟩
  · have hst := (State.storeWord_ok (w := w)).2 ⟨(s.inBounds_iff_toInt a 4).2 h, rfl⟩
    exact ⟨_, hst, Memory.wf_writeBytes _ hw _, State.storeWord_holdsWord hw hst, State.storeWord_memKept hw hst⟩

/-- Settles O8: the four bytes hold the word, and the address of the byte `k` does not wrap. -/
theorem mixedWidths : Obligations.MixedWidths := by
  unfold Obligations.MixedWidths
  intro s t a w hw h
  have hload := State.loadWord_storeWord hw h
  obtain ⟨hin, hword⟩ := State.loadWord_ok_iff_holdsWord.1 hload
  refine ⟨hload, fun k hk => ?_⟩
  have hk' := State.add_toNat_of_inBounds hin (Nat.le_of_lt hk)
  have hin' : t.inBounds (a + BitVec.ofNat 32 k) 1 = true := by
    rw [State.inBounds_iff] at hin ⊢
    omega
  exact State.loadByte_ok.2 ⟨hin', by rw [hk', hword k hk]⟩

/-- Settles O18: the bytes at the pc are the encoding just stored, so the fetch answers the instruction. -/
theorem storedCodeRuns : Obligations.StoredCodeRuns := by
  unfold Obligations.StoredCodeRuns
  intro s i hr hw hm hin
  obtain ⟨hlen, -, -⟩ := Laws.Encoding.statement i s.config.opcodes []
  exact step_of_fetch_ok hr <| State.fetch_of_encoded hm hin fun k hk =>
    State.byteAt_writeBytes hw s.pc.toNat (by rwa [hlen])

/-- Settles O21, by the instructions that have a data access. -/
theorem accessFaults : Obligations.AccessFaults := by
  unfold Obligations.AccessFaults
  exact fun s i a n hi ha hout => exec_of_access_outside hi ha ((s.inBounds_false_iff_toInt a n).2 hout)

/-- Settles O28: a fault writes no byte, and a completed instruction those of its store. -/
theorem memoryWriters : Obligations.MemoryWriters := by
  unfold Obligations.MemoryWriters
  intro i s t hw h a ha
  obtain ⟨e, -, rfl⟩ | hc := exec_cases h
  · rfl
  · exact hc.byteAt_eq hw ha

/-- Settles O29: the rules run on the two memories agree. -/
theorem memoryReaders : Obligations.MemoryReaders := by
  unfold Obligations.MemoryReaders
  exact fun i s m hm => exec_setMem hm

/-- Settles O55: the POPL loads the word the PUSHL stored, and puts SP and the register back. -/
theorem pushThenPop : Obligations.PushThenPop := by
  unfold Obligations.PushThenPop
  intro s rA rB rB' r hw hr hin
  obtain ⟨m, hpush⟩ := State.push_of_inBounds hin (s.pushValue r)
  have hload := State.loadWord_push hw hpush
  have hkept := State.push_memKept hw hpush
  have hpop := exec_popl_of_pushValue (s := s) (t := ((s.setMem m).writeReg .SP s.pushAddr).advance 2) (rB := rB') hr rfl hload
  rw [State.advance_readReg, State.readReg_writeReg_same, State.pushAddr_add_four] at hpop
  exact ⟨_, _, exec_pushl_of_push hr hpush, (s.setMem m).readReg_writeReg_same .SP s.pushAddr, rfl, ⟨rfl, rfl⟩, hpop,
    s.regsKept_restored m s.pushAddr r, BitVec.add_assoc s.pc 2 2, rfl, hkept, ⟨rfl, rfl⟩, ⟨rfl, rfl⟩⟩

end Sys2Proof.Machine
end

section
/-! SUPPORT. The codec as two inverses: what the encoder writes of an instruction that the decoder has put together, and what each
refusal of the decoder says of the bytes (30_encoding.md sections 1 to 4). -/

namespace Sys2Proof

variable {m : OpcodeMap} {bytes : List Byte}

/-! ### What the encoder writes -/

/-- The operand bytes of an instruction read from bytes are the bytes it was read from (30_encoding.md R82, R83, R85). -/
theorem operandBytes_assemble (op : Opcode) (f : Nat → Byte) :
    (assemble op f).operandBytes = (List.range' 1 (op.length - 1)).map f := by
  cases op with
  | nop | halt | ret => rfl
  | rrmovl | addl | subl | andl | xorl | mull | cmpl | pushl | popl => exact congrArg ([·]) (regByte_fields (f 1))
  | jmp | jle | jl | je | jne | jge | jg | call => exact le32Bytes_le32 (f 1) (f 2) (f 3) (f 4)
  | irmovl | rmmovl | mrmovl | readb | readl | writeb | writel | movsbl =>
    exact congrArg₂ List.cons (regByte_fields (f 1)) (le32Bytes_le32 (f 2) (f 3) (f 4) (f 5))

/-- Encoding an instruction read from bytes that begin with its opcode's writes the first bytes back, as many as it is long. -/
theorem encode_assemble {op : Opcode} (hop : m.byteOf op = bytes.getD 0 0) (hlen : op.length ≤ bytes.length) :
    encode m (assemble op fun k => bytes.getD k 0) = bytes.take op.length := by
  have hpos := Machine.Opcode.length_pos op
  rw [encode, assemble_opcode, operandBytes_assemble, hop]
  apply List.ext_getElem
  · simp only [List.length_cons, List.length_map, List.length_range', List.length_take]
    omega
  · intro k hk hk'
    rw [List.length_take] at hk'
    cases k with
    | zero => simp [List.getElem?_eq_getElem (show 0 < bytes.length by omega)]
    | succ k => simp [Nat.add_comm 1 k, List.getElem?_eq_getElem (show k + 1 < bytes.length by omega)]

/-! ### Why the decoder refuses -/

/-- In a legal map a byte selects an opcode exactly when it is the opcode's byte (30_encoding.md R81). -/
theorem OpcodeMap.opcodeOf_eq_some (hm : m.wf) {b : Byte} {op : Opcode} : m.opcodeOf b = some op ↔ m.byteOf op = b :=
  ⟨OpcodeMap.byteOf_of_opcodeOf, fun h => h ▸ OpcodeMap.opcodeOf_byteOf hm op⟩

/-- What the decoder answers on a byte that selects no opcode (30_encoding.md R91). -/
theorem decode_of_no_opcode {b : Byte} (h : m.opcodeOf b = none) (bs : List Byte) :
    decode m (b :: bs) = .error (.illegalOpcode b) := by
  simp only [decode, h]

theorem decode_noOpcodeByte : decode m bytes = .error .noOpcodeByte ↔ bytes = [] := by
  constructor
  · intro h
    cases bytes with
    | nil => rfl
    | cons b bs =>
      cases ho : m.opcodeOf b with
      | none =>
        rw [decode_of_no_opcode ho] at h
        cases h
      | some op =>
        rw [decode_of_opcodeOf ho] at h
        split at h <;> cases h
  · rintro rfl
    rfl

theorem decode_illegalOpcode {b : Byte} :
    decode m bytes = .error (.illegalOpcode b) ↔ bytes.head? = some b ∧ m.opcodeOf b = none := by
  constructor
  · intro h
    cases bytes with
    | nil => cases h
    | cons c bs =>
      cases ho : m.opcodeOf c with
      | none =>
        rw [decode_of_no_opcode ho] at h
        cases h
        exact ⟨rfl, ho⟩
      | some op =>
        rw [decode_of_opcodeOf ho] at h
        split at h <;> cases h
  · rintro ⟨hb, ho⟩
    obtain ⟨bs, rfl⟩ := List.head?_eq_some_iff.1 hb
    exact decode_of_no_opcode ho bs

theorem decode_truncated {op : Opcode} : decode m bytes = .error (.truncated op) ↔
    ∃ b, bytes.head? = some b ∧ m.opcodeOf b = some op ∧ bytes.length < op.length := by
  constructor
  · intro h
    cases bytes with
    | nil => cases h
    | cons b bs =>
      cases ho : m.opcodeOf b with
      | none =>
        rw [decode_of_no_opcode ho] at h
        cases h
      | some op' =>
        rw [decode_of_opcodeOf ho] at h
        split at h <;> cases h
        exact ⟨b, rfl, ho, ‹_›⟩
  · rintro ⟨b, hb, ho, hlen⟩
    obtain ⟨bs, rfl⟩ := List.head?_eq_some_iff.1 hb
    rw [decode_of_opcodeOf ho, if_pos hlen]

end Sys2Proof
end

section
/-! SUPPORT. Register fields that name no register (30_encoding.md R87), and IRMOVL's two outcomes (30_encoding.md R88). -/

namespace Sys2Proof.Machine

variable {s : State} {rA rB : RegField}

theorem regOfField_eq_none {f : RegField} : regOfField f = none ↔ 8 ≤ f.toNat := by
  rw [← Option.isNone_iff_eq_none, ← Option.not_isSome, regOfField_isSome]
  simp [namesRegister]

/-- IRMOVL checks rA before it looks at rB. -/
theorem exec_irmovl_of_reg {r : Reg} (hA : regOfField rA = some r) (rB : RegField) (V : Word) :
    exec (.irmovl rA rB V) s = .next (s.setStatus .badAddress) :=
  commit_of_badAddress <| bind_of_error (needNoReg_error.2 ⟨by rw [hA]; rfl, rfl⟩) _

theorem exec_irmovl_of_no_reg {dst : Reg} (hA : regOfField rA = none) (hB : regOfField rB = some dst) (V : Word) :
    exec (.irmovl rA rB V) s = .next ((s.writeReg dst V).advance 6) :=
  commit_of_ok <| (bind_of_ok (needNoReg_ok (u := ()).2 hA) _).trans (needReg_bind hB _)

end Sys2Proof.Machine
end

section
/-! SUPPORT. The statements about the encoding (30_encoding.md), settled. -/

namespace Sys2Proof.Machine

/-- Settles O1: the encoding begins with a byte that selects the opcode, and reading its fields back gives the instruction. -/
theorem decodeAfterEncode : Obligations.DecodeAfterEncode := by
  unfold Obligations.DecodeAfterEncode
  intro m hm i rest
  obtain ⟨hlen, -, hfields⟩ := Laws.Encoding.statement i m rest
  refine decode_ok.2 ⟨m.byteOf i.opcode, i.operandBytes ++ rest, i.opcode, rfl, OpcodeMap.opcodeOf_byteOf hm i.opcode, ?_,
    hfields.symm, (List.drop_left' hlen).symm⟩
  rw [List.length_append, hlen]
  exact Nat.le_add_right _ _

/-- Settles O2: the encoder writes back the bytes the decoder has taken, and the decoder leaves the others over. -/
theorem encodeAfterDecode : Obligations.EncodeAfterDecode := by
  unfold Obligations.EncodeAfterDecode
  intro m bytes rest i h
  obtain ⟨b, bs, op, rfl, ho, hlen, rfl, rfl⟩ := decode_ok.1 h
  rw [encode_assemble (OpcodeMap.byteOf_of_opcodeOf ho) hlen, List.take_append_drop]

/-- Settles O3: the three refusals, with the opcode a byte selects read as the opcode whose byte it is. -/
theorem decoderRefusals : Obligations.DecoderRefusals := by
  unfold Obligations.DecoderRefusals
  intro m hm bytes
  refine ⟨decode_noOpcodeByte, fun b => ?_, fun op => ?_⟩
  · rw [decode_illegalOpcode, OpcodeMap.opcodeOf_eq_none]
  · simp [decode_truncated, OpcodeMap.opcodeOf_eq_some hm]

/-- Settles O4, word by word. -/
theorem tableWordsDecode : Obligations.TableWordsDecode := by
  unfold Obligations.TableWordsDecode
  exact ⟨rfl, rfl, rfl, rfl, rfl, rfl, rfl, rfl, rfl, rfl, rfl⟩

/-- Settles O5: the eight names by evaluation, the other fields by the check of R87. -/
theorem fieldsNameRegisters : Obligations.FieldsNameRegisters := by
  unfold Obligations.FieldsNameRegisters
  exact ⟨rfl, fun f hf => regOfField_eq_none.2 hf⟩

/-- Settles O39: rA decides between the fault and the load. -/
theorem irmovlLoadsImmediate : Obligations.IrmovlLoadsImmediate := by
  unfold Obligations.IrmovlLoadsImmediate
  intro s rA rB V
  refine ⟨fun hA => ?_, fun hA dst hB => ?_⟩
  · obtain ⟨r, hr⟩ := Option.ne_none_iff_exists'.1 (mt regOfField_eq_none.1 (Nat.not_le_of_lt hA))
    exact exec_irmovl_of_reg hr rB V
  · refine ⟨_, exec_irmovl_of_no_reg (regOfField_eq_none.2 hA) hB V, s.readReg_writeReg_same dst V, fun q hq => ?_, rfl, rfl,
      fun _ _ => rfl, ⟨rfl, rfl⟩, ⟨rfl, rfl⟩⟩
    exact s.readReg_writeReg_ne dst q V (List.ne_of_not_mem_cons hq)

end Sys2Proof.Machine
end

section
/-! SUPPORT. What a step is decided by: the status (40_step.md R100), the bytes at the pc (R101 to R103), and the field checks of the
instruction it runs (R104). -/

namespace Sys2Proof.Machine

variable {i : Instr} {s : State}

/-! ### The status -/

/-- A running core always has a next state: the fetched instruction's, or that of the fault of its fetch. -/
theorem step_isNext_of_running (hr : s.status = .running) : ∃ t, step s = .next t := by
  cases hf : s.fetch with
  | ok i =>
    rw [step_of_fetch_ok hr hf]
    exact exec_isNext i s
  | error e => exact ⟨_, step_of_fetch_error hr hf⟩

/-- What the model answers in place of the step a stopped core does not take (10_state.md R32, log 13). -/
theorem step_of_terminal (hs : s.status.terminal = true) : step s = .fault (.stopped s.status) := by
  unfold step
  cases hst : s.status with
  | running =>
    rw [hst] at hs
    cases hs
  | halted | badAddress | badInstruction => rfl

/-! ### The bytes at the pc -/

/-- The `n` bytes from the pc on. -/
abbrev State.bytesAtPc (s : State) (n : Nat) : List Byte := (List.range n).map fun k => s.byteAt (s.pc.toNat + k)

theorem State.bytesAtPc_getD {n k : Nat} (hk : k < n) : (s.bytesAtPc n).getD k 0 = s.byteAt (s.pc.toNat + k) := by
  simp [List.getD, hk]

/-- A fetch answers what the decoder makes of bytes at the pc that lie in memory: it reads no others. -/
theorem State.fetch_of_decode {n : Nat} {rest : List Byte} (hin : s.inBounds s.pc n = true)
    (hd : decode s.config.opcodes (s.bytesAtPc n) = .ok (i, rest)) : s.fetch = .ok i := by
  obtain ⟨b, bs, op, hbytes, hop, hlen, rfl, -⟩ := decode_ok.1 hd
  rw [List.length_map, List.length_range] at hlen
  have hpos := Opcode.length_pos op
  have hb : b = s.byteAt s.pc.toNat := by
    have h0 := State.bytesAtPc_getD (s := s) (show 0 < n by omega)
    rwa [hbytes] at h0
  refine State.fetch_ok.2 ⟨op, hb ▸ hop, State.inBounds_mono hlen hin, assemble_congr op fun k hk => ?_⟩
  exact State.bytesAtPc_getD (Nat.lt_of_lt_of_le hk hlen)

/-! ### The field checks -/

/-- A rule that raises RegFault is committed as the status alone, the one `RegFieldFault` says (30_encoding.md R89). -/
theorem commit_of_regFault {x : Except Trap State} (h : x = .error .regFault) : commit s x = .next (s.raise .regFault) := by
  rw [h]
  rfl

theorem regOfField_of_not_namesRegister {f : RegField} (h : namesRegister f = false) : regOfField f = none :=
  regOfField_eq_none.2 (Nat.le_of_not_lt (of_decide_eq_false h))

/-- A field that names no register fails its check (30_encoding.md R89). -/
theorem needReg_of_not_namesRegister {f : RegField} (h : namesRegister f = false) : needReg f = .error .regFault :=
  needReg_error.2 ⟨regOfField_of_not_namesRegister h, rfl⟩

/-- A rule that begins by checking rA and rB ends there when one of them names no register. -/
theorem needReg_bind_needReg_error {β : Type} {rA rB : RegField} (h : (namesRegister rA && namesRegister rB) = false)
    (g : Reg → Reg → Except Trap β) : (needReg rA >>= fun a => needReg rB >>= g a) = .error .regFault := by
  cases hA : namesRegister rA with
  | false => exact bind_of_error (needReg_of_not_namesRegister hA) _
  | true =>
    obtain ⟨a, ha⟩ := regOfField_of_namesRegister hA
    rw [hA, Bool.true_and] at h
    exact (needReg_bind ha _).trans (bind_of_error (needReg_of_not_namesRegister h) _)

/-- An ill-formed instruction raises RegFault before it writes anything, unless it is IRMOVL with an rA that names a register
(30_encoding.md R88, R89). -/
theorem exec_of_not_wellFormed (hi : i.wellFormed = false) (hA : ∀ rA rB V, i = .irmovl rA rB V → namesRegister rA = false) :
    exec i s = .next (s.raise .regFault) := by
  cases i with
  | nop | halt | ret | jmp | jle | jl | je | jne | jge | jg | call => cases hi
  | irmovl rA rB V =>
    have hA := hA rA rB V rfl
    have hB : namesRegister rB = false := by simpa [Instr.wellFormed, hA] using hi
    have hpass : needNoReg rA = .ok () := needNoReg_ok.2 (regOfField_of_not_namesRegister hA)
    exact commit_of_regFault <| (bind_of_ok hpass _).trans <|
      bind_of_error (needReg_of_not_namesRegister hB) _
  | rrmovl | rmmovl | mrmovl | addl | subl | andl | xorl | mull | cmpl | movsbl =>
    exact commit_of_regFault (needReg_bind_needReg_error hi _)
  | pushl | popl | readb | readl | writeb | writel =>
    exact commit_of_regFault (bind_of_error (needReg_of_not_namesRegister hi) _)

end Sys2Proof.Machine
end

section
/-! SUPPORT. The statements about the step (40_step.md), settled. -/

namespace Sys2Proof.Machine

/-- Settles O15: a running core runs what it fetches or takes the fault of its fetch, and no other core steps. -/
theorem stepsWhileRunning : Obligations.StepsWhileRunning := by
  unfold Obligations.StepsWhileRunning
  refine fun s => ⟨⟨?_, step_isNext_of_running⟩, step_of_terminal⟩
  rintro ⟨t, h⟩
  exact (step_cases h).1

/-- Settles O17: the fetch answers what the decoder does, and a running core runs what it fetches. -/
theorem stepRunsDecoded : Obligations.StepRunsDecoded := by
  unfold Obligations.StepRunsDecoded
  exact fun s n i rest hr hin hd => step_of_fetch_ok hr (State.fetch_of_decode hin hd)

/-- Settles O19, by the three reasons of a fetch that raises. -/
theorem fetchFaults : Obligations.FetchFaults := by
  unfold Obligations.FetchFaults
  refine fun s hr => ⟨fun hout => ?_, fun hin hno => ?_, fun op hin hop hout => ?_⟩
  · exact step_of_fetch_error hr (State.fetch_error.2 (.inl ⟨hout, rfl⟩))
  · exact step_of_fetch_error hr (State.fetch_error.2 (.inr (.inl ⟨hin, OpcodeMap.opcodeOf_eq_none.2 hno, rfl⟩)))
  · exact step_of_fetch_error hr (State.fetch_error.2 (.inr (.inr ⟨hin, rfl, op, hop, hout⟩)))

/-- Settles O20: IRMOVL's own check comes first, and every other failed check raises RegFault. -/
theorem fieldFaults : Obligations.FieldFaults := by
  unfold Obligations.FieldFaults
  refine fun s i hi => ⟨?_, fun hA => ?_⟩
  · rintro rA rB V rfl hA
    obtain ⟨r, hr⟩ := regOfField_of_namesRegister (decide_eq_true hA)
    exact exec_irmovl_of_reg hr rB V
  · exact exec_of_not_wellFormed hi fun rA rB V h => decide_eq_false (Nat.not_lt_of_le (hA rA rB V h))

end Sys2Proof.Machine
end

section
/-! SUPPORT. NOP and HALT (41_nop_halt.md): their two rules, which check nothing and so always complete, and their statements, settled. -/

namespace Sys2Proof.Machine

theorem exec_nop (s : State) : exec .nop s = .next (s.advance 1) := commit_of_ok (s := s) rfl

theorem exec_halt (s : State) : exec .halt s = .next (s.setStatus .halted) := commit_of_ok (s := s) rfl

/-- Settles O36: moving the pc on leaves every other field as it was. -/
theorem nopAdvances : Obligations.NopAdvances := by
  unfold Obligations.NopAdvances
  intro s
  have hregs : RegsKept s (s.advance 1) [] := fun r _ => s.advance_readReg 1 r
  have hmem : MemKept s (s.advance 1) 0 0 := fun k _ => s.advance_byteAt 1 k
  have hchannels : ChannelsKept s (s.advance 1) := ⟨s.advance_input 1, s.advance_output 1⟩
  have hcontrol : ControlKept s (s.advance 1) := ⟨s.advance_status 1, s.advance_config 1⟩
  exact ⟨_, exec_nop s, s.advance_pc 1, hregs, s.advance_flags 1, hmem, hchannels, hcontrol⟩

/-- Settles O37: writing the status leaves every other field, the pc too, as it was (92_eei_decisions.md D11). -/
theorem haltStops : Obligations.HaltStops := by
  unfold Obligations.HaltStops
  intro s
  have hregs : RegsKept s (s.setStatus .halted) [] := fun r _ => s.setStatus_readReg .halted r
  have hmem : MemKept s (s.setStatus .halted) 0 0 := fun k _ => s.setStatus_byteAt .halted k
  have hchannels : ChannelsKept s (s.setStatus .halted) := ⟨s.setStatus_input .halted, s.setStatus_output .halted⟩
  exact ⟨_, exec_halt s, s.setStatus_status .halted, s.setStatus_pc .halted, hregs, s.setStatus_flags .halted, hmem, hchannels,
    s.setStatus_config .halted⟩

end Sys2Proof.Machine
end

section
/-! SUPPORT. The moves (42_moves.md): what RRMOVL, RMMOVL and MRMOVL do once their fields name registers and their span is admitted, and
their statements, settled. -/

namespace Sys2Proof.Machine

variable {s t : State} {rA rB : RegField}

/-! ### The three rules -/

theorem exec_rrmovl_of_regs {src dst : Reg} (hA : regOfField rA = some src) (hB : regOfField rB = some dst) :
    exec (.rrmovl rA rB) s = .next ((s.writeReg dst (s.readReg src)).advance 2) :=
  commit_of_ok <| (needReg_bind hA _).trans (needReg_bind hB _)

/-- RMMOVL stores, then moves the pc on. -/
theorem exec_rmmovl_of_store {src base : Reg} {V : Word} (hA : regOfField rA = some src) (hB : regOfField rB = some base)
    (hst : s.storeWord (s.ea base V) (s.readReg src) = .ok t) : exec (.rmmovl rA rB V) s = .next (t.advance 6) :=
  commit_of_ok <| (needReg_bind hA _).trans <| (needReg_bind hB _).trans (bind_of_ok hst _)

/-- MRMOVL takes the address from the registers as they were before it writes one (42_moves.md R123). -/
theorem exec_mrmovl_of_load {dst base : Reg} {V w : Word} (hA : regOfField rA = some dst) (hB : regOfField rB = some base)
    (hload : s.loadWord (s.ea base V) = .ok w) : exec (.mrmovl rA rB V) s = .next ((s.writeReg dst w).advance 6) :=
  commit_of_ok <| (needReg_bind hA _).trans <| (needReg_bind hB _).trans (bind_of_ok hload _)

/-! ### What a move into a register leaves alone -/

theorem State.regsKept_writeReg (s : State) (r : Reg) (v : Word) : RegsKept s (s.writeReg r v) [r] :=
  fun q hq => s.readReg_writeReg_ne r q v (List.ne_of_not_mem_cons hq)

/-- An instruction that writes one register and moves the pc on keeps everything else. -/
theorem frame_of_writeReg_advance {r : Reg} {v : Word} {n : Nat} (ht : t = (s.writeReg r v).advance n) :
    RegsKept s t [r] ∧ t.flags = s.flags ∧ t.pc = s.pc + BitVec.ofNat 32 n ∧ MemKept s t 0 0 ∧ ChannelsKept s t ∧
      ControlKept s t := by
  subst ht
  exact ⟨s.regsKept_writeReg r v, rfl, rfl, fun _ _ => rfl, ⟨rfl, rfl⟩, ⟨rfl, rfl⟩⟩

/-! ### The statements -/

/-- Settles O40: the store is admitted, and it writes the word's bytes and keeps those beside them. -/
theorem rmmovlStores : Obligations.RmmovlStores := by
  unfold Obligations.RmmovlStores
  intro s rA rB V src base hw hA hB hin
  have hst := (State.storeWord_ok (w := s.readReg src)).2 ⟨hin, rfl⟩
  have hword := State.storeWord_holdsWord hw hst
  have hkept := State.storeWord_memKept hw hst
  exact ⟨_, exec_rmmovl_of_store hA hB hst, hword, hkept, fun _ _ => rfl, rfl, rfl, ⟨rfl, rfl⟩, ⟨rfl, rfl⟩⟩

/-- Settles O38: both fields pass their checks, so the copy completes. -/
theorem rrmovlCopies : Obligations.RrmovlCopies := by
  unfold Obligations.RrmovlCopies
  intro s rA rB src dst hA hB
  exact ⟨_, exec_rrmovl_of_regs hA hB, s.readReg_writeReg_same dst (s.readReg src), frame_of_writeReg_advance rfl⟩

/-- Settles O41: the load is admitted, and answers the word that the four bytes hold. -/
theorem mrmovlLoads : Obligations.MrmovlLoads := by
  unfold Obligations.MrmovlLoads
  intro s rA rB V dst base hA hB hin
  have hload := State.loadWord_ok.2 ⟨hin, rfl⟩
  obtain ⟨-, hword⟩ := State.loadWord_ok_iff_holdsWord.1 hload
  refine ⟨_, exec_mrmovl_of_load hA hB hload, ?_, frame_of_writeReg_advance rfl⟩
  rw [State.advance_readReg, State.readReg_writeReg_same]
  exact hword

end Sys2Proof.Machine
end

section
/-! SUPPORT. The ALU (43_alu.md): its flags as facts about integers and sign bits, what each of its instructions does once both fields name
registers, and its statements, settled. -/

namespace Sys2Proof.Machine

variable {s t : State} {rA rB : RegField} {ra rb : Reg}

/-! ### The flags -/

/-- A 32-bit signed integer can hold the exact result (43_alu.md R132, R133, R136). -/
abbrev FitsWord (exact : Int) : Prop := -2 ^ 31 ≤ exact ∧ exact ≤ 2 ^ 31 - 1

theorem overflows_iff {exact : Int} : overflows exact = true ↔ ¬FitsWord exact := by
  rw [overflows, Bool.not_eq_true', decide_eq_false_iff_not]
  rfl

theorem resultFlags_ZF_iff {ovf : Bool} {res : Word} : (resultFlags ovf res).ZF = true ↔ res = 0 := decide_eq_true_iff

theorem resultFlags_SF_iff {ovf : Bool} {res : Word} : (resultFlags ovf res).SF = true ↔ res.toInt < 0 := by
  rw [resultFlags, BitVec.msb_eq_toInt, decide_eq_true_iff]

/-- A sum overflows when the operands have one sign and the result the other (43_alu.md R132). -/
theorem not_fitsWord_add_iff (b a : Word) : ¬FitsWord (b.toInt + a.toInt) ↔ a.msb = b.msb ∧ (b + a).msb ≠ b.msb := by
  have hovf : b.saddOverflow a = true ↔ ¬FitsWord (b.toInt + a.toInt) := by
    simp only [BitVec.saddOverflow, Bool.or_eq_true, decide_eq_true_iff]
    omega
  have hsigns : ∀ p q r : Bool, (p == q && !r == p) = true ↔ q = p ∧ r ≠ p := by decide
  rw [← hovf, BitVec.saddOverflow_eq]
  exact hsigns _ _ _

/-- A difference overflows when the operands have different signs and the result does not have that of `b` (43_alu.md R133). -/
theorem not_fitsWord_sub_iff (b a : Word) : ¬FitsWord (b.toInt - a.toInt) ↔ a.msb ≠ b.msb ∧ (b - a).msb ≠ b.msb := by
  have hovf : b.ssubOverflow a = true ↔ ¬FitsWord (b.toInt - a.toInt) := by
    simp only [BitVec.ssubOverflow, Bool.or_eq_true, decide_eq_true_iff]
    omega
  have hsigns : ∀ p q r : Bool, (!p && q && r || p && !q && !r) = true ↔ q ≠ p ∧ r ≠ p := by decide
  rw [← hovf, BitVec.ssubOverflow_eq]
  exact hsigns _ _ _

/-! ### What an ALU instruction does -/

/-- An ALU instruction's effect, from its next state: registers apart, only the flags and the pc differ from the state before. -/
theorem aluEffect_of_next {i : Instr} {ws : List Reg} {res : Word} {ovf : Bool} {P : Prop} (he : exec i s = .next t)
    (ht : t = { s with regs := t.regs, flags := resultFlags ovf res, pc := s.pc + 2 }) (hres : ∀ r ∈ ws, t.readReg r = res)
    (hkept : RegsKept s t ws) (hovf : ovf = true ↔ P) : AluEffect i s ws res P := by
  refine ⟨t, he, hres, hkept, ?_⟩
  rw [ht]
  exact ⟨hovf, resultFlags_ZF_iff, resultFlags_SF_iff, rfl, fun _ _ => rfl, ⟨rfl, rfl⟩, ⟨rfl, rfl⟩⟩

section
variable (hA : regOfField rA = some ra) (hB : regOfField rB = some rb)
include hA hB

/-- The effect of an ALU instruction with a destination (43_alu.md R130). -/
theorem aluEffect_of_writes {i : Instr} {res : Word → Word → Word} {ovf : Word → Word → Bool} {P : Prop}
    (hi : exec i s = commit s (alu rA rB res (fun b a => resultFlags (ovf b a) (res b a)) true s))
    (hovf : ovf (s.readReg rb) (s.readReg ra) = true ↔ P) : AluEffect i s [rb] (res (s.readReg rb) (s.readReg ra)) P :=
  aluEffect_of_next (hi.trans (commit_of_ok (alu_ok hA hB _ _ _))) rfl
    (List.forall_mem_singleton.2 (State.readReg_writeReg_same _ rb _))
    (fun q hq => State.readReg_writeReg_ne _ rb q _ (List.ne_of_not_mem_cons hq)) hovf

theorem addl_aluEffect : AluEffect (.addl rA rB) s [rb] (s.readReg rb + s.readReg ra)
    (¬FitsWord ((s.readReg rb).toInt + (s.readReg ra).toInt)) :=
  aluEffect_of_writes (res := fun b a => b + a) hA hB rfl overflows_iff

theorem subl_aluEffect : AluEffect (.subl rA rB) s [rb] (s.readReg rb - s.readReg ra)
    (¬FitsWord ((s.readReg rb).toInt - (s.readReg ra).toInt)) :=
  aluEffect_of_writes (res := fun b a => b - a) hA hB rfl overflows_iff

theorem mull_aluEffect : AluEffect (.mull rA rB) s [rb] (s.readReg rb * s.readReg ra)
    (¬FitsWord ((s.readReg rb).toInt * (s.readReg ra).toInt)) :=
  aluEffect_of_writes (res := fun b a => b * a) hA hB rfl overflows_iff

theorem andl_aluEffect : AluEffect (.andl rA rB) s [rb] (s.readReg rb &&& s.readReg ra) False :=
  aluEffect_of_writes (res := fun b a => b &&& a) hA hB rfl Bool.false_eq_true.to_iff

theorem xorl_aluEffect : AluEffect (.xorl rA rB) s [rb] (s.readReg rb ^^^ s.readReg ra) False :=
  aluEffect_of_writes (res := fun b a => b ^^^ a) hA hB rfl Bool.false_eq_true.to_iff

/-- CMPL has no destination (43_alu.md R137). -/
theorem cmpl_aluEffect : AluEffect (.cmpl rA rB) s [] (s.readReg rb - s.readReg ra)
    (¬FitsWord ((s.readReg rb).toInt - (s.readReg ra).toInt)) :=
  aluEffect_of_next (commit_of_ok (alu_ok hA hB (fun b a => b - a) subFlags false)) rfl nofun (fun _ _ => rfl) overflows_iff

end

/-- The zero and sign flags of an ALU instruction, the sign flag as a comparison and as bit 31 (43_alu.md R131). -/
theorem AluEffect.zeroAndSign {i : Instr} {ws : List Reg} {res : Word} {P : Prop} (h : AluEffect i s ws res P) :
    ∃ t, exec i s = .next t ∧ (t.flags.ZF = true ↔ res = 0x00000000) ∧ (t.flags.SF = true ↔ res.toInt < 0) ∧
      t.flags.SF = res.getLsbD 31 := by
  obtain ⟨t, he, -, -, -, hZF, hSF, -⟩ := h
  have hbit : t.flags.SF = res.msb := by rw [Bool.eq_iff_iff, hSF, BitVec.msb_eq_toInt, decide_eq_true_iff]
  exact ⟨t, he, hZF, hSF, hbit.trans res.msb_eq_getLsbD_last⟩

/-- The overflow flag of an ALU instruction in the next state it answers. -/
theorem AluEffect.overflow_iff {i : Instr} {ws : List Reg} {res : Word} {P : Prop} (h : AluEffect i s ws res P)
    (he : exec i s = .next t) : t.flags.OF = true ↔ P := by
  obtain ⟨u, hu, -, -, hOF, -⟩ := h
  cases he.symm.trans hu
  exact hOF

/-! ### The statements -/

/-- Settles O42: each instruction's effect gives both flags. -/
theorem zeroAndSignFlags : Obligations.ZeroAndSignFlags := by
  unfold Obligations.ZeroAndSignFlags
  intro s rA rB ra rb hA hB i res hi
  simp only [List.mem_cons, List.not_mem_nil, or_false, Prod.mk.injEq] at hi
  obtain ⟨rfl, rfl⟩ | ⟨rfl, rfl⟩ | ⟨rfl, rfl⟩ | ⟨rfl, rfl⟩ | ⟨rfl, rfl⟩ | ⟨rfl, rfl⟩ := hi
  · exact (addl_aluEffect hA hB).zeroAndSign
  · exact (subl_aluEffect hA hB).zeroAndSign
  · exact (andl_aluEffect hA hB).zeroAndSign
  · exact (xorl_aluEffect hA hB).zeroAndSign
  · exact (mull_aluEffect hA hB).zeroAndSign
  · exact (cmpl_aluEffect hA hB).zeroAndSign

/-- Settles O43: OF is the test of the exact sum or difference against the range of a word. -/
theorem addlSublResults : Obligations.AddlSublResults := by
  unfold Obligations.AddlSublResults
  exact fun _ _ _ _ _ hA hB => ⟨addl_aluEffect hA hB, subl_aluEffect hA hB⟩

/-- Settles O44: the overflow of the exact result, read off the sign bits. -/
theorem overflowFromSigns : Obligations.OverflowFromSigns := by
  unfold Obligations.OverflowFromSigns
  intro s t rA rB ra rb hA hB
  refine ⟨fun he => ?_, fun he => ?_⟩
  · exact ((addl_aluEffect hA hB).overflow_iff he).trans (not_fitsWord_add_iff _ _)
  · exact ((subl_aluEffect hA hB).overflow_iff he).trans (not_fitsWord_sub_iff _ _)

/-- Settles O45: the product of the words is the exact product modulo 2^32. -/
theorem mullResult : Obligations.MullResult := by
  unfold Obligations.MullResult
  intro s rA rB ra rb hA hB
  rw [BitVec.ofInt_mul, BitVec.ofInt_toInt, BitVec.ofInt_toInt]
  exact mull_aluEffect hA hB

/-- Settles O46: no exact result, so OF is clear (XORL by 92_eei_decisions.md D5). -/
theorem andlXorlResults : Obligations.AndlXorlResults := by
  unfold Obligations.AndlXorlResults
  exact fun _ _ _ _ _ hA hB => ⟨andl_aluEffect hA hB, xorl_aluEffect hA hB⟩

/-- Settles O47: the flags are SUBL's, and the register file is not written. -/
theorem cmplOnlyFlags : Obligations.CmplOnlyFlags := by
  unfold Obligations.CmplOnlyFlags
  exact fun _ _ _ _ _ hA hB => cmpl_aluEffect hA hB

end Sys2Proof.Machine
end

section
/-! SUPPORT. The jumps (44_jumps.md): the condition of each in the flags, what the flags say after a comparison, and their statements,
settled. -/

namespace Sys2Proof.Machine

variable {s t : State} {f : Flags} {a b : Word}

/-! ### The conditions -/

/-- A conditional jump whose condition says `P` goes to its target when `P` holds, and otherwise on by 5 (44_jumps.md R150). -/
theorem commit_jumpIf {c : Bool} {P : Prop} [Decidable P] (h : c = true ↔ P) (dest : Word) :
    commit s (.ok (s.jumpIf c dest)) = .next (s.setPc (if P then dest else s.pc + 5)) := by
  rw [commit_of_ok rfl, State.jumpIf_eq_setPc, if_congr h rfl rfl]

/-- A condition that negates another, as JNE, JGE and JG negate JE, JL and JLE (44_jumps.md R155 to R157). -/
theorem not_eq_true_iff {c : Bool} {P : Prop} (h : c = true ↔ P) : (!c) = true ↔ ¬P := by
  rw [Bool.not_eq_true', ← Bool.not_eq_true, h]

theorem condLE_iff : condLE f = true ↔ f.ZF = true ∨ f.SF ≠ f.OF := by
  rw [condLE, Bool.or_eq_true, bne_iff_ne]

theorem condL_iff : condL f = true ↔ f.ZF = false ∧ f.SF ≠ f.OF := by
  rw [condL, Bool.and_eq_true, Bool.not_eq_true', bne_iff_ne]

theorem condE_iff : condE f = true ↔ f.ZF = true := Iff.rfl

theorem condNE_iff : condNE f = true ↔ f.ZF = false := (Bool.not_eq_true' _).to_iff

theorem condGE_iff : condGE f = true ↔ f.ZF = true ∨ f.SF = f.OF := by
  rw [← Bool.not_eq_false f.ZF, ← not_ne_iff (a := f.SF), ← not_and_or]
  exact not_eq_true_iff condL_iff

theorem condG_iff : condG f = true ↔ f.ZF = false ∧ f.SF = f.OF := by
  rw [← Bool.not_eq_true, ← not_ne_iff (a := f.SF), ← not_or]
  exact not_eq_true_iff condLE_iff

/-! ### After a comparison -/

/-- The flags tell how `b` compares with `a` as signed numbers: ZF that they are equal, SF apart from OF that `b` is less. -/
structure FlagsCompare (f : Flags) (b a : Word) : Prop where
  ZF_iff_eq : f.ZF = true ↔ b.toInt = a.toInt
  SF_ne_OF_iff_lt : f.SF ≠ f.OF ↔ b.toInt < a.toInt

/-- The sign of a wrapped difference is that of the exact one, unless the exact one does not fit (43_alu.md R131, R133). -/
theorem toInt_sub_neg_iff (b a : Word) :
    (b - a).toInt < 0 ↔ (FitsWord (b.toInt - a.toInt) ↔ b.toInt < a.toInt) := by
  have := b.toInt_lt
  have := b.le_toInt
  have := a.toInt_lt
  have := a.le_toInt
  rw [BitVec.toInt_sub, Int.bmod_def]
  split <;> omega

/-- The flags of `b - a` compare `b` with `a`, whether the difference fits a word or not. -/
theorem AluEffect.flagsCompare {i : Instr} {ws : List Reg} (h : AluEffect i s ws (b - a) (¬FitsWord (b.toInt - a.toInt)))
    (he : exec i s = .next t) : FlagsCompare t.flags b a := by
  obtain ⟨u, hu, -, -, hOF, hZF, hSF, -⟩ := h
  cases he.symm.trans hu
  constructor
  case ZF_iff_eq => rw [hZF, sub_eq_zero, BitVec.toInt_inj]
  case SF_ne_OF_iff_lt =>
    rw [Ne, Bool.eq_iff_iff, hOF, hSF, toInt_sub_neg_iff]
    tauto

namespace FlagsCompare

variable (h : FlagsCompare f b a)
include h

theorem condE_iff_eq : condE f = true ↔ b = a := h.ZF_iff_eq.trans BitVec.toInt_inj

theorem condNE_iff_ne : condNE f = true ↔ b ≠ a := not_eq_true_iff h.condE_iff_eq

theorem condL_iff_lt : condL f = true ↔ b.toInt < a.toInt := by
  rw [condL_iff, ← Bool.not_eq_true, h.ZF_iff_eq, h.SF_ne_OF_iff_lt]
  omega

theorem condLE_iff_le : condLE f = true ↔ b.toInt ≤ a.toInt := by
  rw [condLE_iff, h.ZF_iff_eq, h.SF_ne_OF_iff_lt]
  omega

theorem condGE_iff_ge : condGE f = true ↔ a.toInt ≤ b.toInt := (not_eq_true_iff h.condL_iff_lt).trans Int.not_lt

theorem condG_iff_gt : condG f = true ↔ a.toInt < b.toInt := (not_eq_true_iff h.condLE_iff_le).trans Int.not_le

end FlagsCompare

/-! ### The statements -/

/-- Settles O49: CMPL and SUBL set the flags of the same difference, and those flags compare `b` with `a`. -/
theorem compareThenJump : Obligations.CompareThenJump := by
  unfold Obligations.CompareThenJump
  intro s t rA rB ra rb dest hA hB he
  have hcmp : FlagsCompare t.flags (s.readReg rb) (s.readReg ra) :=
    he.elim (cmpl_aluEffect hA hB).flagsCompare (subl_aluEffect hA hB).flagsCompare
  exact ⟨commit_jumpIf hcmp.condL_iff_lt dest, commit_jumpIf hcmp.condLE_iff_le dest, commit_jumpIf hcmp.condE_iff_eq dest,
    commit_jumpIf hcmp.condNE_iff_ne dest, commit_jumpIf hcmp.condGE_iff_ge dest, commit_jumpIf hcmp.condG_iff_gt dest⟩

/-- Settles O48: a jump checks nothing, and each condition is a test of the flags. -/
theorem jumpTargets : Obligations.JumpTargets := by
  unfold Obligations.JumpTargets
  intro s dest
  exact ⟨commit_of_ok (s := s) rfl, commit_jumpIf condLE_iff dest, commit_jumpIf condL_iff dest, commit_jumpIf condE_iff dest,
    commit_jumpIf condNE_iff dest, commit_jumpIf condGE_iff dest, commit_jumpIf condG_iff dest⟩

end Sys2Proof.Machine
end

section
/-! SUPPORT. The call stack (45_call_stack.md): what CALL and RET do once their span is admitted, what PUSHL stores and POPL writes
under each `SPSelfMode`, and the statements about them, settled. -/

namespace Sys2Proof.Machine

variable {s t u : State}

/-! ### The word at the top of the stack -/

theorem State.push_holdsWord (hw : s.mem.wf) {v : Word} (h : s.push v = .ok t) : HoldsWord t s.pushAddr.toNat v := by
  obtain ⟨hin, rfl⟩ := State.push_ok.1 h
  have hword := State.storeWord_holdsWord hw ((State.storeWord_ok (w := v)).2 ⟨hin, rfl⟩)
  exact hword

theorem State.loadWord_of_inBounds {a : Word} (h : s.inBounds a 4 = true) :
    ∃ v, s.loadWord a = .ok v ∧ HoldsWord s a.toNat v := by
  have hload := State.loadWord_ok.2 ⟨h, rfl⟩
  exact ⟨_, hload, (State.loadWord_ok_iff_holdsWord.1 hload).2⟩

/-- The same four bytes hold one word. -/
theorem HoldsWord.unique {a : Nat} {v w : Word} (hv : HoldsWord s a v) (hw : HoldsWord s a w) : v = w :=
  (holdsWord_iff.1 hv).trans (holdsWord_iff.1 hw).symm

/-! ### CALL and RET -/

theorem exec_call_of_push (dest : Word) (h : s.push (s.pc + 5) = .ok t) : exec (.call dest) s = .next (t.setPc dest) :=
  commit_of_ok (bind_of_ok h _)

theorem exec_ret_of_load {v : Word} (h : s.loadWord (s.readReg .SP) = .ok v) :
    exec .ret s = .next ((s.writeReg .SP (s.readReg .SP + 4)).setPc v) := by
  have hpop := State.pop_ok.2 ⟨h, rfl⟩
  exact commit_of_ok (bind_of_ok hpop _)

/-! ### `SPSelfMode` (92_eei_decisions.md D12) -/

theorem State.pushValue_of_ne {r : Reg} (h : r ≠ .SP) : s.pushValue r = s.readReg r :=
  if_neg fun hsp => h hsp.1

theorem State.pushValue_of_literal {r : Reg} (hr : r = .SP) (h : s.config.spSelfMode = .literal) :
    s.pushValue r = s.readReg .SP - 4 :=
  if_pos ⟨hr, h⟩

theorem State.pushValue_of_classic {r : Reg} (hr : r = .SP) (h : s.config.spSelfMode = .classic) :
    s.pushValue r = s.readReg .SP := by
  subst hr
  exact if_neg (by simp [h])

theorem State.popInto_of_ne {r : Reg} (h : r ≠ .SP) (v : Word) : s.popInto r v = s.writeReg r v :=
  if_neg fun hsp => h hsp.1

theorem State.readReg_popInto_of_literal (h : s.config.spSelfMode = .literal) (v : Word) :
    (s.popInto .SP v).readReg .SP = v + 4 := by
  rw [State.popInto_eq_writeReg, State.readReg_writeReg_same, if_pos ⟨rfl, h⟩]

theorem State.readReg_popInto_of_classic (h : s.config.spSelfMode = .classic) (v : Word) :
    (s.popInto .SP v).readReg .SP = v := by
  rw [State.popInto_eq_writeReg, State.readReg_writeReg_same, if_neg (by simp [h])]

/-! ### What stays the same -/

/-- The bound depends on the configuration alone. -/
theorem ControlKept.inBounds_eq (h : ControlKept s t) (a : Word) (n : Nat) : t.inBounds a n = s.inBounds a n := by
  rw [State.inBounds, State.inBounds, h.2]

/-- A register changed and changed back leaves the register file as it was. -/
theorem RegsKept.restored {r : Reg} (h : RegsKept s t [r]) (h' : RegsKept t u [r]) (hr : u.readReg r = s.readReg r) :
    RegsKept s u [] := by
  intro q _
  by_cases hq : q = r
  · rw [hq, hr]
  · have hq' := mt List.mem_singleton.1 hq
    exact (h' q hq').trans (h q hq')

/-- Whatever POPL writes, after SP has moved up it writes a register and moves the pc on. -/
theorem frame_of_popInto_advance {r : Reg} {p v : Word} {n : Nat} (ht : t = ((s.writeReg .SP p).popInto r v).advance n) :
    RegsKept s t [r, .SP] ∧ t.flags = s.flags ∧ t.pc = s.pc + BitVec.ofNat 32 n ∧ MemKept s t 0 0 ∧ ChannelsKept s t ∧
      ControlKept s t := by
  rw [State.popInto_eq_writeReg] at ht
  subst ht
  refine ⟨fun q hq => ?_, rfl, rfl, fun _ _ => rfl, ⟨rfl, rfl⟩, ⟨rfl, rfl⟩⟩
  obtain ⟨hr, hsp⟩ := List.ne_and_not_mem_of_not_mem_cons hq
  rw [State.advance_readReg, State.readReg_writeReg_ne _ _ _ _ hr]
  exact s.regsKept_writeReg .SP p q hsp

/-! ### The statements -/

/-- Settles O50: the push is admitted, and the target is not checked. -/
theorem callPushes : Obligations.CallPushes := by
  unfold Obligations.CallPushes
  intro s dest hw hin
  obtain ⟨m, hpush⟩ := State.push_of_inBounds hin (s.pc + 5)
  have hword := State.push_holdsWord hw hpush
  have hkept := State.push_memKept hw hpush
  exact ⟨_, exec_call_of_push dest hpush, hword, hkept, (s.setMem m).readReg_writeReg_same .SP s.pushAddr,
    (s.setMem m).regsKept_writeReg .SP s.pushAddr, rfl, rfl, ⟨rfl, rfl⟩, ⟨rfl, rfl⟩⟩

/-- Settles O51: the load is admitted, and answers the word at SP. -/
theorem retPops : Obligations.RetPops := by
  unfold Obligations.RetPops
  intro s hin
  obtain ⟨v, hload, hword⟩ := State.loadWord_of_inBounds hin
  exact ⟨_, exec_ret_of_load hload, hword, s.readReg_writeReg_same .SP _, s.regsKept_writeReg .SP _, rfl, fun _ _ => rfl,
    ⟨rfl, rfl⟩, ⟨rfl, rfl⟩⟩

/-- Settles O52: the RET finds SP where the CALL has left it, in memory and on the word the CALL has pushed. -/
theorem callThenRet : Obligations.CallThenRet := by
  unfold Obligations.CallThenRet
  intro s dest hw hin
  obtain ⟨t, hcall, hpushed, hmem, hsp, hregs, -, hflags, -, hcontrol⟩ := callPushes s dest hw hin
  have hin' : t.inBounds (t.readReg .SP) 4 = true := by rw [hsp, hcontrol.inBounds_eq, hin]
  obtain ⟨u, hret, hpopped, hsp', hregs', hflags', hmem', -⟩ := retPops t hin'
  rw [hsp] at hpopped hsp'
  have hback : u.readReg .SP = s.readReg .SP := hsp'.trans s.pushAddr_add_four
  exact ⟨t, u, hcall, hret, hpopped.unique hpushed, hregs.restored hregs' hback, hflags'.trans hflags,
    fun a ha => (hmem' a (.inr a.zero_le)).trans (hmem a ha)⟩

/-- Settles O53: the push is admitted, and `SPSelfMode` says which word it stores. -/
theorem pushlStores : Obligations.PushlStores := by
  unfold Obligations.PushlStores
  intro s rA rB r hw hr hin
  obtain ⟨m, hpush⟩ := State.push_of_inBounds hin (s.pushValue r)
  have hword := State.push_holdsWord hw hpush
  have hkept := State.push_memKept hw hpush
  exact ⟨_, _, exec_pushl_of_push hr hpush, State.pushValue_of_ne, State.pushValue_of_literal, State.pushValue_of_classic,
    hword, hkept, (s.setMem m).readReg_writeReg_same .SP s.pushAddr, (s.setMem m).regsKept_writeReg .SP s.pushAddr,
    rfl, rfl, ⟨rfl, rfl⟩, ⟨rfl, rfl⟩⟩

/-- Settles O54: the load is admitted, and the register is written after SP has moved up, so that for SP itself the write is what
stands. -/
theorem poplLoads : Obligations.PoplLoads := by
  unfold Obligations.PoplLoads
  intro s rA rB r hr hin
  obtain ⟨v, hload, hword⟩ := State.loadWord_of_inBounds hin
  refine ⟨_, v, exec_popl_of_load hr hload, hword, fun hne => ?_, fun hsp hc => ?_, fun hsp hc => ?_,
    frame_of_popInto_advance rfl⟩
  · rw [State.advance_readReg, State.advance_readReg, State.popInto_of_ne hne, State.readReg_writeReg_same,
      State.readReg_writeReg_ne _ _ _ _ hne.symm, State.readReg_writeReg_same]
    exact ⟨rfl, rfl⟩
  · subst hsp
    exact State.readReg_popInto_of_literal (s := s.writeReg .SP (s.readReg .SP + 4)) hc v
  · subst hsp
    exact State.readReg_popInto_of_classic (s := s.writeReg .SP (s.readReg .SP + 4)) hc v

end Sys2Proof.Machine
end

section
/-! SUPPORT. Input and output (46_io.md): what READB, READL, WRITEB and WRITEL do once their base names a register and their span is
admitted, the positions of the input channel a run leads to, and the statements about them, settled. -/

namespace Sys2Proof.Machine

variable {i : Instr} {s t : State} {rA rB : RegField} {base : Reg} {V : Word}

/-! ### The four rules -/

/-- READB that the host answers. That the store is admitted says that the address check before it passes (46_io.md R171). -/
theorem exec_readb_of_answer {b : Byte} {input : InState} (hA : regOfField rA = some base)
    (hin : s.input.readByte = some (b, input)) (hst : s.storeByte (s.ea base V) b = .ok t) :
    exec (.readb rA rB V) s = .next (((t.setInput input).setZF false).advance 6) := by
  obtain ⟨hb, -⟩ := State.storeByte_ok.1 hst
  refine commit_of_ok <| (needReg_bind hA _).trans <| (bind_of_ok (State.checkBounds_ok (u := ()).2 hb) _).trans ?_
  rw [hin]
  exact bind_of_ok hst _

/-- READL that the host answers (46_io.md R172). -/
theorem exec_readl_of_answer {w : Word} {input : InState} (hA : regOfField rA = some base)
    (hin : s.input.readLong = some (w, input)) (hst : s.storeWord (s.ea base V) w = .ok t) :
    exec (.readl rA rB V) s = .next (((t.setInput input).setZF false).advance 6) := by
  obtain ⟨hb, -⟩ := State.storeWord_ok.1 hst
  refine commit_of_ok <| (needReg_bind hA _).trans <| (bind_of_ok (State.checkBounds_ok (u := ()).2 hb) _).trans ?_
  rw [hin]
  exact bind_of_ok hst _

theorem exec_writeb_of_load {b : Byte} (hA : regOfField rA = some base) (hload : s.loadByte (s.ea base V) = .ok b) :
    exec (.writeb rA rB V) s = .next ((s.emit (.outByte b)).advance 6) :=
  commit_of_ok <| (needReg_bind hA _).trans (bind_of_ok hload _)

theorem exec_writel_of_load {w : Word} (hA : regOfField rA = some base) (hload : s.loadWord (s.ea base V) = .ok w) :
    exec (.writel rA rB V) s = .next ((s.emit (.outLong w)).advance 6) :=
  commit_of_ok <| (needReg_bind hA _).trans (bind_of_ok hload _)

/-! ### What input and output leave alone -/

/-- An answered read changes memory, the input position and ZF, moves the pc on, and keeps everything else. -/
theorem frame_of_received_advance {m : Memory} {input : InState} {n : Nat}
    (ht : t = (((s.setMem m).setInput input).setZF false).advance n) :
    t.flags = { s.flags with ZF := false } ∧ t.input = input ∧ t.output = s.output ∧ RegsKept s t [] ∧
      t.pc = s.pc + BitVec.ofNat 32 n ∧ ControlKept s t := by
  subst ht
  exact ⟨rfl, rfl, rfl, fun _ _ => rfl, rfl, ⟨rfl, rfl⟩⟩

/-- An emitted event changes the output trace, moves the pc on, and keeps everything else. -/
theorem frame_of_emit_advance {e : OutEvent} {n : Nat} (ht : t = (s.emit e).advance n) :
    t.output = s.output ++ [e] ∧ t.input = s.input ∧ RegsKept s t [] ∧ t.flags = s.flags ∧
      t.pc = s.pc + BitVec.ofNat 32 n ∧ MemKept s t 0 0 ∧ ControlKept s t := by
  subst ht
  exact ⟨rfl, rfl, fun _ _ => rfl, rfl, rfl, fun _ _ => rfl, ⟨rfl, rfl⟩⟩

/-! ### Where a run leads the input channel -/

theorem InState.Ahead.trans {i j k : InState} (hij : i.Ahead j) (hjk : j.Ahead k) : i.Ahead k := by
  induction hjk with
  | here => exact hij
  | byte b _ hread ih => exact .byte b ih hread
  | long w _ hread ih => exact .long w ih hread

/-- A step leaves the input position where it was or makes one successful read. -/
theorem Steps.ahead (h : Steps s t) : s.input.Ahead t.input := by
  obtain hkept | ⟨i, -, ⟨-, b, hread⟩ | ⟨-, w, hread⟩⟩ := inputOnlyRead s t h
  · exact hkept ▸ .here
  · exact .byte b .here hread
  · exact .long w .here hread

/-- A run leads the input position to one that lies ahead. -/
theorem Reaches.ahead (h : Reaches s t) : s.input.Ahead t.input := by
  induction h with
  | refl => exact .here
  | tail _ hstep ih => exact ih.trans hstep.ahead

/-- A host that answers every read answers every read from any position ahead. -/
theorem InState.Unending.of_ahead {i j : InState} (h : i.Unending) (hij : i.Ahead j) : j.Unending :=
  fun k hjk => h k (hij.trans hjk)

/-- A completed READB or READL has cleared ZF if the host has an answer to both kinds of read. -/
theorem Completed.zf_of_read (h : Completed i s t) (hi : i.opcode ∈ [.readb, .readl])
    (hin : s.input.readByte ≠ none ∧ s.input.readLong ≠ none) : t.flags.ZF = false := by
  obtain ⟨hbyte, hlong⟩ := hin
  cases i with
  | readb =>
    obtain ⟨base, -, -, ⟨b, input, u, -, -, rfl⟩ | ⟨hnone, -⟩⟩ := h
    · rfl
    · exact absurd hnone hbyte
  | readl =>
    obtain ⟨base, -, -, ⟨w, input, u, -, -, rfl⟩ | ⟨hnone, -⟩⟩ := h
    · rfl
    · exact absurd hnone hlong
  | _ => simp [Instr.opcode] at hi

/-! ### The statements -/

/-- Settles O58: the load is admitted, and answers what lies at the address. -/
theorem writesEmit : Obligations.WritesEmit := by
  unfold Obligations.WritesEmit
  refine fun s rA rB V base hA => ⟨fun hin => ?_, fun hin => ?_⟩
  · exact ⟨_, exec_writeb_of_load hA (State.loadByte_ok.2 ⟨hin, rfl⟩), frame_of_emit_advance rfl⟩
  · obtain ⟨w, hload, hword⟩ := State.loadWord_of_inBounds hin
    exact ⟨_, w, exec_writel_of_load hA hload, hword, frame_of_emit_advance rfl⟩

/-- Settles O56: the store is admitted, and the host's answer is what it writes. -/
theorem readsStore : Obligations.ReadsStore := by
  unfold Obligations.ReadsStore
  refine fun s rA rB V base hw hA => ⟨fun b input hin hread => ?_, fun w input hin hread => ?_⟩
  · have hst := (State.storeByte_ok (b := b)).2 ⟨hin, rfl⟩
    have hbyte := State.storeByte_byteAt hw hst
    have hkept := State.storeByte_memKept hw hst
    exact ⟨_, exec_readb_of_answer hA hread hst, hbyte, hkept, frame_of_received_advance rfl⟩
  · have hst := (State.storeWord_ok (w := w)).2 ⟨hin, rfl⟩
    have hword := State.storeWord_holdsWord hw hst
    have hkept := State.storeWord_memKept hw hst
    exact ⟨_, exec_readl_of_answer hA hread hst, hword, hkept, frame_of_received_advance rfl⟩

/-- Settles O35: the run's input position lies ahead of the start's, so the host answers whichever read runs there. -/
theorem unendingInputNeverFails : Obligations.UnendingInputNeverFails := by
  unfold Obligations.UnendingInputNeverFails
  intro s t u hs hrun hstep
  have ht : t.input.Unending := hs.of_ahead hrun.ahead
  refine ⟨ht, fun i hf hi hu => ?_⟩
  obtain ⟨hr, -⟩ := step_cases hstep
  rw [step_of_fetch_ok hr hf] at hstep
  obtain ⟨e, -, rfl⟩ | hc := exec_cases hstep
  · exact absurd hu (t.raise_status_ne_running e)
  · exact hc.zf_of_read hi (ht _ .here)

end Sys2Proof.Machine
end

section
/-! SUPPORT. MOVSBL (47_movsbl.md): what it does once its fields name registers and its byte is admitted, and its statement, settled. -/

namespace Sys2Proof.Machine

variable {s : State} {ra rb base dst : Reg}

theorem toInt_sext32 (b : Byte) : (sext32 b).toInt = b.toInt := BitVec.toInt_signExtend_of_le (by decide)

/-- The roles, from what each field order makes of the two registers (92_eei_decisions.md D17). -/
theorem movsblRoles_eq {order : MovsblFieldOrder} (hhigh : order = .baseHigh → base = ra ∧ dst = rb)
    (hlow : order = .baseLow → base = rb ∧ dst = ra) : movsblRoles order ra rb = (base, dst) := by
  cases order with
  | baseHigh =>
    obtain ⟨rfl, rfl⟩ := hhigh rfl
    rfl
  | baseLow =>
    obtain ⟨rfl, rfl⟩ := hlow rfl
    rfl

/-- MOVSBL takes the address from the registers as they were before it writes one (47_movsbl.md R180). -/
theorem exec_movsbl_of_load {rA rB : RegField} {V : Word} {b : Byte} (hA : regOfField rA = some ra) (hB : regOfField rB = some rb)
    (hroles : movsblRoles s.config.movsblFieldOrder ra rb = (base, dst)) (hload : s.loadByte (s.ea base V) = .ok b) :
    exec (.movsbl rA rB V) s = .next ((s.writeReg dst (sext32 b)).advance 6) := by
  refine commit_of_ok <| (needReg_bind hA _).trans <| (needReg_bind hB _).trans ?_
  rw [hroles]
  exact bind_of_ok hload _

/-- Settles O59: the load is admitted, and extending the sign of the byte it answers keeps the byte's signed value. -/
theorem movsblSignExtends : Obligations.MovsblSignExtends := by
  unfold Obligations.MovsblSignExtends
  intro s rA rB V ra rb base dst hA hB hhigh hlow hin
  have hload := State.loadByte_ok.2 ⟨hin, rfl⟩
  refine ⟨_, exec_movsbl_of_load hA hB (movsblRoles_eq hhigh hlow) hload, ?_, frame_of_writeReg_advance rfl⟩
  rw [State.advance_readReg, State.readReg_writeReg_same]
  exact toInt_sext32 _

end Sys2Proof.Machine
end

section
/-! SUPPORT. The faults of a step, complete: when a running core takes one (60_exceptions.md R206), what every other step does to the
status, and how two runs from one state compare. -/

namespace Sys2Proof.Machine

variable {i : Instr} {s t : State} {e : Trap}

/-! ### When an instruction raises -/

/-- The instruction raises `e`: a field check fails, or none does and the data access is not admitted (60_exceptions.md R206). -/
inductive Raises (i : Instr) (s : State) : Trap → Prop where
  | field {e : Trap} : fieldTrap i = some e → Raises i s e
  | access {a : Word} {n : Nat} : fieldTrap i = none → accessSpan i s = some (a, n) → s.inBounds a n = false →
      Raises i s .badAddress

/-- The field checks find nothing exactly in a well-formed instruction (40_step.md R104). -/
theorem fieldTrap_eq_none : fieldTrap i = none ↔ i.wellFormed = true := by
  unfold fieldTrap
  split
  next h => exact ⟨fun _ => h, fun _ => rfl⟩
  next h => split <;> exact ⟨nofun, fun h' => absurd h' h⟩

/-- A failed field check is IRMOVL's own, on an rA that names a register, or raises RegFault (30_encoding.md R88, R89). -/
theorem fieldTrap_eq_some (h : fieldTrap i = some e) : i.wellFormed = false ∧
    ((e = .badAddress ∧ ∃ rA rB V, i = .irmovl rA rB V ∧ namesRegister rA = true) ∨
      (e = .regFault ∧ ∀ rA rB V, i = .irmovl rA rB V → namesRegister rA = false)) := by
  have hi : i.wellFormed = false := by
    rw [← Bool.not_eq_true, ← fieldTrap_eq_none, h]
    exact Option.some_ne_none e
  refine ⟨hi, ?_⟩
  unfold fieldTrap at h
  rw [hi, if_neg Bool.false_ne_true] at h
  split at h
  next rA rB V =>
    cases hA : namesRegister rA with
    | true =>
      rw [hA] at h
      cases h
      exact .inl ⟨rfl, rA, rB, V, rfl, hA⟩
    | false =>
      rw [hA] at h
      cases h
      exact .inr ⟨rfl, fun _ _ _ hirmovl => by cases hirmovl; exact hA⟩
  next hne =>
    cases h
    exact .inr ⟨rfl, fun rA rB V hirmovl => absurd hirmovl (hne rA rB V)⟩

theorem fieldTrap_ne_badInstruction (i : Instr) : fieldTrap i ≠ some .badInstruction := by
  intro h
  obtain ⟨-, ⟨he, -⟩ | ⟨he, -⟩⟩ := fieldTrap_eq_some h <;> cases he

/-- An instruction that raises is committed as the status alone. -/
theorem Raises.exec_eq (h : Raises i s e) : exec i s = .next (s.raise e) := by
  cases h with
  | field h =>
    obtain ⟨hi, ⟨rfl, rA, rB, V, rfl, hA⟩ | ⟨rfl, hA⟩⟩ := fieldTrap_eq_some h
    · obtain ⟨r, hr⟩ := regOfField_of_namesRegister hA
      exact exec_irmovl_of_reg hr rB V
    · exact exec_of_not_wellFormed hi hA
  | access hi ha hout => exact exec_of_access_outside (fieldTrap_eq_none.1 hi) ha hout

/-! ### Reads without an answer -/

/-- READB that the host does not answer (46_io.md R171). -/
theorem exec_readb_of_no_answer {rA rB : RegField} {base : Reg} {V : Word} (hA : regOfField rA = some base)
    (hb : s.inBounds (s.ea base V) 1 = true) (hin : s.input.readByte = none) :
    exec (.readb rA rB V) s = .next ((s.setZF true).advance 6) := by
  refine commit_of_ok <| (needReg_bind hA _).trans <| (bind_of_ok (State.checkBounds_ok (u := ()).2 hb) _).trans ?_
  rw [hin]
  rfl

/-- READL that the host does not answer (46_io.md R172). -/
theorem exec_readl_of_no_answer {rA rB : RegField} {base : Reg} {V : Word} (hA : regOfField rA = some base)
    (hb : s.inBounds (s.ea base V) 4 = true) (hin : s.input.readLong = none) :
    exec (.readl rA rB V) s = .next ((s.setZF true).advance 6) := by
  refine commit_of_ok <| (needReg_bind hA _).trans <| (bind_of_ok (State.checkBounds_ok (u := ()).2 hb) _).trans ?_
  rw [hin]
  rfl

/-- A read without an answer changes ZF, moves the pc on, and keeps everything else. -/
theorem frame_of_unanswered_advance {n : Nat} (ht : t = (s.setZF true).advance n) :
    t.flags = { s.flags with ZF := true } ∧ t.pc = s.pc + BitVec.ofNat 32 n ∧ MemKept s t 0 0 ∧ RegsKept s t [] ∧
      ChannelsKept s t ∧ ControlKept s t := by
  subst ht
  exact ⟨rfl, rfl, fun _ _ => rfl, fun _ _ => rfl, ⟨rfl, rfl⟩, ⟨rfl, rfl⟩⟩

/-! ### When an instruction completes -/

/-- The two register checks of an instruction whose fields both have a role (30_encoding.md R87). -/
theorem regsOfFields_of_namesRegister {rA rB : RegField} (h : (namesRegister rA && namesRegister rB) = true) :
    ∃ ra rb, regOfField rA = some ra ∧ regOfField rB = some rb := by
  obtain ⟨hA, hB⟩ := Bool.and_eq_true_iff.1 h
  obtain ⟨ra, hA⟩ := regOfField_of_namesRegister hA
  obtain ⟨rb, hB⟩ := regOfField_of_namesRegister hB
  exact ⟨ra, rb, hA, hB⟩

/-- A well-formed instruction whose data access, if it has one, is admitted completes. -/
theorem exec_completes (hi : i.wellFormed = true) (hin : ∀ a n, accessSpan i s = some (a, n) → s.inBounds a n = true) :
    ∃ t, exec i s = .next t ∧ Completed i s t := by
  cases i with
  | nop | halt | jmp | jle | jl | je | jne | jge | jg => exact ⟨_, rfl, rfl⟩
  | addl | subl | andl | xorl | mull | cmpl =>
    obtain ⟨ra, rb, hA, hB⟩ := regsOfFields_of_namesRegister hi
    exact ⟨_, commit_of_ok (alu_ok hA hB _ _ _), ra, rb, hA, hB, rfl⟩
  | rrmovl =>
    obtain ⟨src, dst, hA, hB⟩ := regsOfFields_of_namesRegister hi
    exact ⟨_, exec_rrmovl_of_regs hA hB, src, dst, hA, hB, rfl⟩
  | irmovl rA rB V =>
    obtain ⟨hA, hB⟩ := Bool.and_eq_true_iff.1 hi
    have hA := regOfField_of_not_namesRegister ((Bool.not_eq_true' _).mp hA)
    obtain ⟨dst, hB⟩ := regOfField_of_namesRegister hB
    exact ⟨_, exec_irmovl_of_no_reg hA hB V, dst, hA, hB, rfl⟩
  | rmmovl =>
    obtain ⟨src, base, hA, hB⟩ := regsOfFields_of_namesRegister hi
    have hst := (State.storeWord_ok (w := s.readReg src)).2 ⟨hin _ _ (by rw [accessSpan, hB]; rfl), rfl⟩
    exact ⟨_, exec_rmmovl_of_store hA hB hst, src, base, _, hA, hB, hst, rfl⟩
  | mrmovl =>
    obtain ⟨dst, base, hA, hB⟩ := regsOfFields_of_namesRegister hi
    have hload := State.loadWord_ok.2 ⟨hin _ _ (by rw [accessSpan, hB]; rfl), rfl⟩
    exact ⟨_, exec_mrmovl_of_load hA hB hload, dst, base, _, hA, hB, hload, rfl⟩
  | movsbl rA rB V =>
    obtain ⟨ra, rb, hA, hB⟩ := regsOfFields_of_namesRegister hi
    have hload := State.loadByte_ok.2 ⟨hin _ _ (accessSpan_movsbl hA hB s V), rfl⟩
    exact ⟨_, exec_movsbl_of_load hA hB rfl hload, ra, rb, _, hA, hB, hload, rfl⟩
  | call dest =>
    have hpush := (State.push_ok (v := s.pc + 5)).2 ⟨hin _ _ rfl, rfl⟩
    exact ⟨_, exec_call_of_push dest hpush, _, hpush, rfl⟩
  | ret =>
    have hload := State.loadWord_ok.2 ⟨hin _ _ rfl, rfl⟩
    exact ⟨_, exec_ret_of_load hload, _, _, State.pop_ok.2 ⟨hload, rfl⟩, rfl⟩
  | pushl =>
    obtain ⟨r, hA⟩ := regOfField_of_namesRegister hi
    have hpush := (State.push_ok (v := s.pushValue r)).2 ⟨hin _ _ rfl, rfl⟩
    exact ⟨_, exec_pushl_of_push hA hpush, r, _, hA, hpush, rfl⟩
  | popl =>
    obtain ⟨r, hA⟩ := regOfField_of_namesRegister hi
    have hload := State.loadWord_ok.2 ⟨hin _ _ rfl, rfl⟩
    exact ⟨_, exec_popl_of_load hA hload, r, _, _, hA, State.pop_ok.2 ⟨hload, rfl⟩, rfl⟩
  | readb =>
    obtain ⟨base, hA⟩ := regOfField_of_namesRegister hi
    have hb := hin _ _ (by rw [accessSpan, hA]; rfl)
    cases hread : s.input.readByte with
    | none => exact ⟨_, exec_readb_of_no_answer hA hb hread, base, hA, hb, .inr ⟨hread, rfl⟩⟩
    | some p =>
      have hst := (State.storeByte_ok (b := p.1)).2 ⟨hb, rfl⟩
      exact ⟨_, exec_readb_of_answer hA hread hst, base, hA, hb, .inl ⟨_, _, _, hread, hst, rfl⟩⟩
  | readl =>
    obtain ⟨base, hA⟩ := regOfField_of_namesRegister hi
    have hb := hin _ _ (by rw [accessSpan, hA]; rfl)
    cases hread : s.input.readLong with
    | none => exact ⟨_, exec_readl_of_no_answer hA hb hread, base, hA, hb, .inr ⟨hread, rfl⟩⟩
    | some p =>
      have hst := (State.storeWord_ok (w := p.1)).2 ⟨hb, rfl⟩
      exact ⟨_, exec_readl_of_answer hA hread hst, base, hA, hb, .inl ⟨_, _, _, hread, hst, rfl⟩⟩
  | writeb =>
    obtain ⟨base, hA⟩ := regOfField_of_namesRegister hi
    have hload := State.loadByte_ok.2 ⟨hin _ _ (by rw [accessSpan, hA]; rfl), rfl⟩
    exact ⟨_, exec_writeb_of_load hA hload, base, _, hA, hload, rfl⟩
  | writel =>
    obtain ⟨base, hA⟩ := regOfField_of_namesRegister hi
    have hload := State.loadWord_ok.2 ⟨hin _ _ (by rw [accessSpan, hA]; rfl), rfl⟩
    exact ⟨_, exec_writel_of_load hA hload, base, _, hA, hload, rfl⟩

/-- An instruction takes a fault that it raises, or it completes. -/
theorem exec_raises_or_completes (h : exec i s = .next t) : (∃ e, Raises i s e ∧ t = s.raise e) ∨ Completed i s t := by
  by_cases hr : ∃ e, Raises i s e
  · obtain ⟨e, hr⟩ := hr
    cases h.symm.trans hr.exec_eq
    exact .inl ⟨e, hr, rfl⟩
  · have hi : fieldTrap i = none := Option.eq_none_iff_forall_ne_some.2 fun e he => hr ⟨e, .field he⟩
    obtain ⟨u, hu, hc⟩ := exec_completes (fieldTrap_eq_none.1 hi) fun a n ha =>
      Bool.of_not_eq_false fun hout => hr ⟨_, .access hi ha hout⟩
    cases h.symm.trans hu
    exact .inr hc

theorem AluCompleted.status_eq {rA rB : RegField} {res : Word → Word → Word} {flags : Word → Word → Flags} {writes : Bool}
    (h : AluCompleted rA rB res flags writes s t) : t.status = s.status := by
  obtain ⟨ra, rb, -, -, rfl⟩ := h
  cases writes <;> rfl

/-- A completed instruction that is not HALT leaves the status (60_exceptions.md R203). -/
theorem Completed.status_eq (h : Completed i s t) (hi : i ≠ .halt) : t.status = s.status := by
  cases i with
  | halt => exact absurd rfl hi
  | nop | jmp => rw [h]; rfl
  | jle | jl | je | jne | jge | jg => rw [h, State.jumpIf_eq_setPc]; rfl
  | addl | subl | andl | xorl | mull | cmpl => exact AluCompleted.status_eq h
  | irmovl =>
    obtain ⟨dst, -, -, rfl⟩ := h
    rfl
  | rrmovl | writeb | writel =>
    obtain ⟨x, y, -, -, rfl⟩ := h
    rfl
  | mrmovl | movsbl =>
    obtain ⟨x, y, z, -, -, -, rfl⟩ := h
    rfl
  | rmmovl =>
    obtain ⟨src, base, u, -, -, hu, rfl⟩ := h
    obtain ⟨-, rfl⟩ := State.storeWord_ok.1 hu
    rfl
  | call =>
    obtain ⟨u, hu, rfl⟩ := h
    obtain ⟨-, rfl⟩ := State.push_ok.1 hu
    rfl
  | ret =>
    obtain ⟨v, u, hu, rfl⟩ := h
    obtain ⟨-, rfl⟩ := State.pop_ok.1 hu
    rfl
  | pushl =>
    obtain ⟨r, u, -, hu, rfl⟩ := h
    obtain ⟨-, rfl⟩ := State.push_ok.1 hu
    rfl
  | popl =>
    obtain ⟨r, v, u, -, hu, rfl⟩ := h
    obtain ⟨-, rfl⟩ := State.pop_ok.1 hu
    rw [State.popInto_eq_writeReg]
    rfl
  | readb =>
    obtain ⟨base, -, -, ⟨b, input, u, -, hu, rfl⟩ | ⟨-, rfl⟩⟩ := h
    · obtain ⟨-, rfl⟩ := State.storeByte_ok.1 hu
      rfl
    · rfl
  | readl =>
    obtain ⟨base, -, -, ⟨w, input, u, -, hu, rfl⟩ | ⟨-, rfl⟩⟩ := h
    · obtain ⟨-, rfl⟩ := State.storeWord_ok.1 hu
      rfl
    · rfl

/-! ### How a step ends the run -/

/-- The step raises `e`: its fetch does, or the instruction it fetches does (60_exceptions.md R206). -/
inductive StepRaises (s : State) : Trap → Prop where
  | fetch {e : Trap} : s.fetch = .error e → StepRaises s e
  | exec {i : Instr} {e : Trap} : s.fetch = .ok i → Raises i s e → StepRaises s e

/-- A running core takes the fault its step raises. -/
theorem StepRaises.step_eq (h : StepRaises s e) (hr : s.status = .running) : step s = .next (s.raise e) := by
  cases h with
  | fetch hf => exact step_of_fetch_error hr hf
  | exec hf hi => exact (step_of_fetch_ok hr hf).trans hi.exec_eq

/-- A step takes a fault that it raises, or runs HALT, or leaves the core running. -/
theorem step_outcome (h : step s = .next t) : (∃ e, StepRaises s e ∧ t = s.raise e) ∨
    (s.fetch = .ok .halt ∧ t = s.setStatus .halted) ∨ t.status = .running := by
  obtain ⟨hr, ⟨i, hf, hx⟩ | ⟨e, hf, ht⟩⟩ := step_cases h
  · obtain ⟨e, he, ht⟩ | hc := exec_raises_or_completes hx
    · exact .inl ⟨e, .exec hf he, ht⟩
    · by_cases hi : i = .halt
      · subst hi
        exact .inr (.inl ⟨hf, hc⟩)
      · exact .inr (.inr ((hc.status_eq hi).trans hr))
  · exact .inl ⟨e, .fetch hf, ht⟩

/-- The status of a fault is one of the two fault statuses, whatever `RegFieldFault` says (60_exceptions.md R200). -/
theorem Trap.status_faulted (e : Trap) (c : Config) : (e.status c).faulted = true := by
  cases e with
  | badAddress | badInstruction => rfl
  | regFault =>
    unfold Trap.status
    cases c.regFieldFault <;> rfl

theorem Trap.status_ne_halted (e : Trap) (c : Config) : e.status c ≠ .halted := by
  intro h
  have hf := e.status_faulted c
  rw [h] at hf
  cases hf

theorem Trap.status_eq_badAddress {c : Config} :
    e.status c = .badAddress ↔ e = .badAddress ∨ (e = .regFault ∧ c.regFieldFault = .badAddress) := by
  unfold Trap.status
  cases e <;> cases c.regFieldFault <;> simp [RegFieldFault.status]

theorem Trap.status_eq_badInstruction {c : Config} :
    e.status c = .badInstruction ↔ e = .badInstruction ∨ (e = .regFault ∧ c.regFieldFault = .badInstruction) := by
  unfold Trap.status
  cases e <;> cases c.regFieldFault <;> simp [RegFieldFault.status]

/-- A step ends in a fault status exactly when it raises a fault of that status. -/
theorem step_status_eq_iff_raises (h : step s = .next t) {st : Status} (hst : st.faulted = true) :
    t.status = st ↔ ∃ e, StepRaises s e ∧ e.status s.config = st := by
  constructor
  · rintro rfl
    obtain ⟨e, he, rfl⟩ | ⟨-, rfl⟩ | hr := step_outcome h
    · exact ⟨e, he, rfl⟩
    · cases hst
    · rw [hr] at hst
      cases hst
  · rintro ⟨e, he, rfl⟩
    cases h.symm.trans (he.step_eq (step_cases h).1)
    rfl

/-! ### The causes of each fault -/

theorem State.fetch_badAddress : s.fetch = .error .badAddress ↔ FetchOutside s := by
  rw [State.fetch_error]
  constructor
  · rintro (⟨hout, -⟩ | ⟨-, -, he⟩ | ⟨-, -, hop⟩)
    · exact .inl hout
    · cases he
    · exact .inr hop
  · intro h
    cases hin : s.inBounds s.pc 1 with
    | false => exact .inl ⟨rfl, rfl⟩
    | true => exact .inr (.inr ⟨rfl, rfl, h.resolve_left (by rw [hin]; nofun)⟩)

theorem State.fetch_badInstruction : s.fetch = .error .badInstruction ↔
    s.inBounds s.pc 1 = true ∧ ∀ op, s.config.opcodes.byteOf op ≠ s.byteAt s.pc.toNat := by
  simp [State.fetch_error, OpcodeMap.opcodeOf_eq_none]

/-- RegFault is no fault of a fetch: the fields are checked after it (60_exceptions.md R206). -/
theorem State.fetch_ne_regFault (s : State) : s.fetch ≠ .error .regFault := by
  simp [State.fetch_error]

theorem stepRaises_badAddress : StepRaises s .badAddress ↔ FetchOutside s ∨ ∃ i, s.fetch = .ok i ∧
    (fieldTrap i = some .badAddress ∨
      (fieldTrap i = none ∧ ∃ a n, accessSpan i s = some (a, n) ∧ s.inBounds a n = false)) := by
  constructor
  · rintro (hf | ⟨hf, hi | ⟨hi, ha, hout⟩⟩)
    · exact .inl (State.fetch_badAddress.1 hf)
    · exact .inr ⟨_, hf, .inl hi⟩
    · exact .inr ⟨_, hf, .inr ⟨hi, _, _, ha, hout⟩⟩
  · rintro (hf | ⟨i, hf, hi | ⟨hi, a, n, ha, hout⟩⟩)
    · exact .fetch (State.fetch_badAddress.2 hf)
    · exact .exec hf (.field hi)
    · exact .exec hf (.access hi ha hout)

theorem stepRaises_badInstruction : StepRaises s .badInstruction ↔
    s.inBounds s.pc 1 = true ∧ ∀ op, s.config.opcodes.byteOf op ≠ s.byteAt s.pc.toNat := by
  rw [← State.fetch_badInstruction]
  constructor
  · rintro (hf | ⟨-, ⟨hi⟩⟩)
    · exact hf
    · exact absurd hi (fieldTrap_ne_badInstruction _)
  · exact .fetch

theorem stepRaises_regFault : StepRaises s .regFault ↔ ∃ i, s.fetch = .ok i ∧ fieldTrap i = some .regFault := by
  constructor
  · rintro (hf | ⟨hf, ⟨hi⟩⟩)
    · exact absurd hf s.fetch_ne_regFault
    · exact ⟨_, hf, hi⟩
  · rintro ⟨i, hf, hi⟩
    exact .exec hf (.field hi)

/-! ### Two runs from one state -/

/-- A run is a chain of steps. -/
theorem Reaches.reflTransGen (h : Reaches s t) : Relation.ReflTransGen Steps s t := by
  induction h with
  | refl => exact .refl
  | tail _ hstep ih => exact ih.tail hstep

theorem reaches_of_reflTransGen (h : Relation.ReflTransGen Steps s t) : Reaches s t := by
  induction h with
  | refl => exact .refl s
  | tail _ hstep ih => exact .tail ih hstep

/-- A state has at most one next state. -/
theorem steps_rightUnique : Relator.RightUnique Steps :=
  fun _ _ _ ht hu => Host.Outcome.next.inj ((Eq.symm ht).trans hu)

end Sys2Proof.Machine
end

section
/-! SUPPORT. The statements about the ends of a run and about failed reads (60_exceptions.md), settled. -/

namespace Sys2Proof.Machine

/-- Settles O22: no fault has the status HALTED, and the one completed instruction that ends the run is HALT. -/
theorem haltedOnlyByHalt : Obligations.HaltedOnlyByHalt := by
  unfold Obligations.HaltedOnlyByHalt
  refine fun s t h => ⟨⟨fun ht => ?_, fun hf => ?_⟩, fun ht => ?_⟩
  · obtain ⟨e, -, rfl⟩ | ⟨hf, -⟩ | hr := step_outcome h
    · exact absurd ht (e.status_ne_halted s.config)
    · exact hf
    · cases hr.symm.trans ht
  · rw [step_of_fetch_ok (step_cases h).1 hf, exec_halt] at h
    cases h
    rfl
  · rw [ht]
    exact ⟨rfl, rfl⟩

/-- Settles O23: the faults with this status are BadInstruction, and RegFault when `RegFieldFault` says so. -/
theorem badInstructionCauses : Obligations.BadInstructionCauses := by
  unfold Obligations.BadInstructionCauses
  intro s t h
  rw [step_status_eq_iff_raises h rfl, ← stepRaises_badInstruction, ← stepRaises_regFault]
  constructor
  · rintro ⟨e, he, hst⟩
    obtain rfl | ⟨rfl, hc⟩ := Trap.status_eq_badInstruction.1 hst
    · exact .inl he
    · exact .inr ⟨hc, he⟩
  · rintro (he | ⟨hc, he⟩)
    · exact ⟨_, he, rfl⟩
    · exact ⟨_, he, Trap.status_eq_badInstruction.2 (.inr ⟨rfl, hc⟩)⟩

/-- Settles O24: the faults with this status are BadAddress, and RegFault when `RegFieldFault` says so. -/
theorem badAddressCauses : Obligations.BadAddressCauses := by
  unfold Obligations.BadAddressCauses
  intro s t h
  rw [step_status_eq_iff_raises h rfl]
  constructor
  · rintro ⟨e, he, hst⟩
    obtain rfl | ⟨rfl, hc⟩ := Trap.status_eq_badAddress.1 hst
    · exact (stepRaises_badAddress.1 he).imp_right fun ⟨i, hf, hi⟩ => ⟨i, hf, hi.imp_right .inr⟩
    · obtain ⟨i, hf, hi⟩ := stepRaises_regFault.1 he
      exact .inr ⟨i, hf, .inr (.inl ⟨hi, hc⟩)⟩
  · rintro (hf | ⟨i, hf, hi | ⟨hi, hc⟩ | ha⟩)
    · exact ⟨_, stepRaises_badAddress.2 (.inl hf), rfl⟩
    · exact ⟨_, stepRaises_badAddress.2 (.inr ⟨i, hf, .inl hi⟩), rfl⟩
    · exact ⟨_, stepRaises_regFault.2 ⟨i, hf, hi⟩, Trap.status_eq_badAddress.2 (.inr ⟨rfl, hc⟩)⟩
    · exact ⟨_, stepRaises_badAddress.2 (.inr ⟨i, hf, .inr ha⟩), rfl⟩

/-- Settles O25: a fault and HALT write the status alone, and every other step leaves the core running. -/
theorem endingStepsArePrecise : Obligations.EndingStepsArePrecise := by
  unfold Obligations.EndingStepsArePrecise
  intro s t h ht
  obtain ⟨e, -, rfl⟩ | ⟨-, rfl⟩ | hr := step_outcome h
  · rfl
  · rfl
  · rw [hr] at ht
    cases ht

/-- Settles O26: of two runs from one state one goes on from where the other ends, and no run goes on from a terminal state. -/
theorem runsEndOnce : Obligations.RunsEndOnce := by
  unfold Obligations.RunsEndOnce
  rintro s t u ⟨hst, ht⟩ ⟨hsu, hu⟩
  obtain htu | hut := Relation.ReflTransGen.total_of_right_unique steps_rightUnique hst.reflTransGen hsu.reflTransGen
  · exact ((reaches_of_reflTransGen htu).eq_of_terminal ht).symm
  · exact (reaches_of_reflTransGen hut).eq_of_terminal hu

/-- Settles O57: the address is admitted, and without an answer the rule writes ZF and the pc (92_eei_decisions.md D14). -/
theorem failedReadsSetZF : Obligations.FailedReadsSetZF := by
  unfold Obligations.FailedReadsSetZF
  refine fun s rA rB V base hA => ⟨fun hb hin => ?_, fun hb hin => ?_⟩
  · exact ⟨_, exec_readb_of_no_answer hA hb hin, frame_of_unanswered_advance rfl⟩
  · exact ⟨_, exec_readl_of_no_answer hA hb hin, frame_of_unanswered_advance rfl⟩

end Sys2Proof.Machine
end

section
/-! SUPPORT. The loader (70_reset_and_hazards.md section 2): the size of a hexadecimal argument, which directives the arguments of
`.size` and `.text` come from, what each part of the loader answers, and its statements, settled. -/

namespace Sys2Proof.Machine

variable {ds : List Directive} {d : Directive} {e : LoadError} {m n : Memory} {cap : Nat}

/-! ### Peeling the loader apart -/

section
variable {ε α β : Type} {x : Except ε α} {f : α → Except ε β}

theorem except_bind_ok {b : β} : (x >>= f) = .ok b ↔ ∃ a, x = .ok a ∧ f a = .ok b := by
  cases x <;> simp [bind, Except.bind]

theorem except_bind_error {e : ε} : (x >>= f) = .error e ↔ x = .error e ∨ ∃ a, x = .ok a ∧ f a = .error e := by
  cases x <;> simp [bind, Except.bind]

end

/-! ### Hexadecimal arguments -/

theorem hexDigit_lt {c : Char} {k : Nat} (h : hexDigit c = some k) : k < 16 := by
  unfold hexDigit at h
  simp only at h
  split at h
  · cases h
    omega
  · split at h
    · cases h
      omega
    · split at h <;> cases h
      omega

/-- Reading a digit multiplies the bound on the value by the base. -/
theorem digitsFrom_lt {base : Nat} {digit : Char → Option Nat} (hdigit : ∀ c k, digit c = some k → k < base) {cs : List Char} :
    ∀ {acc v : Nat}, digitsFrom base digit acc cs = some v → v < (acc + 1) * base ^ cs.length := by
  induction cs with
  | nil =>
    intro acc v h
    cases h
    simp
  | cons c cs ih =>
    intro acc v h
    obtain ⟨k, hk, hrest⟩ := Option.bind_eq_some_iff.1 h
    have hacc : base * acc + k + 1 ≤ (acc + 1) * base := by
      have hlt := hdigit c k hk
      rw [Nat.add_one_mul, Nat.mul_comm acc]
      omega
    calc v < (base * acc + k + 1) * base ^ cs.length := ih hrest
      _ ≤ (acc + 1) * base * base ^ cs.length := Nat.mul_le_mul_right _ hacc
      _ = (acc + 1) * base ^ (c :: cs).length := by rw [List.length_cons, Nat.pow_succ', Nat.mul_assoc]

/-- A hexadecimal argument fits a word (70_reset_and_hazards.md R231). -/
theorem hexValue_lt {cs : List Char} {v : Nat} (h : hexValue cs = .ok v) : v < 2 ^ 32 := by
  unfold hexValue at h
  split at h
  next hlen =>
    split at h
    next w hw =>
      cases h
      calc v < (0 + 1) * 16 ^ cs.length := digitsFrom_lt (fun _ _ => hexDigit_lt) hw
        _ ≤ (0 + 1) * 16 ^ 8 := Nat.mul_le_mul_left _ (Nat.pow_le_pow_right (by decide) hlen.2)
    next => cases h
  next => cases h

/-! ### The token of an argument that does not read -/

theorem hexValue_error_token {cs : List Char} (h : hexValue cs = .error e) : e.token = some cs := by
  rw [hexValue_error h]
  rfl

theorem hexBytes_error_token {cs : List Char} (h : hexBytes cs = .error e) : e.token = some cs := by
  obtain rfl | rfl := hexBytes_error h <;> rfl

theorem decValue_error_token {cs : List Char} (h : decValue cs = .error e) : e.token = some cs := by
  obtain rfl | rfl := decValue_error h <;> rfl

/-! ### The arguments of `.size` and `.text` -/

theorem mem_sizeArgs {c : List Char} : c ∈ sizeArgs ds ↔ .size c ∈ ds := by
  induction ds with
  | nil => simp [sizeArgs]
  | cons d ds ih => cases d <;> simp [sizeArgs, ih]

theorem mem_textArgs {a : List Char} : a ∈ textArgs ds ↔ ∃ b, .text a b ∈ ds := by
  induction ds with
  | nil => simp [textArgs]
  | cons d ds ih => cases d <;> simp [textArgs, ih, exists_or]

/-! ### The capacity and the entry -/

/-- The capacity loaded is the argument of a `.size` (70_reset_and_hazards.md R222). -/
theorem loadCapacity_ok {c : Capacity} (h : loadCapacity ds = .ok c) : ∃ hex, .size hex ∈ ds ∧ hexValue hex = .ok c.val := by
  unfold loadCapacity at h
  split at h
  next hex hargs =>
    obtain ⟨v, hv, h⟩ := except_bind_ok.1 h
    split at h
    · cases h
      exact ⟨hex, mem_sizeArgs.1 (by simp [hargs]), hv⟩
    · cases h
  next => cases h
  next => cases h

/-- The entry loaded is the address of a `.text` (70_reset_and_hazards.md R223). -/
theorem loadEntry_ok {w : Word} (h : loadEntry ds = .ok w) :
    ∃ addr bytes, .text addr bytes ∈ ds ∧ hexValue addr = .ok w.toNat := by
  unfold loadEntry at h
  split at h
  next addr hargs =>
    obtain ⟨v, hv, h⟩ := except_bind_ok.1 h
    cases h
    obtain ⟨bytes, hmem⟩ := mem_textArgs.1 (show addr ∈ textArgs ds by simp [hargs])
    exact ⟨addr, bytes, hmem, by rw [hv, BitVec.toNat_ofNat, Nat.mod_eq_of_lt (hexValue_lt hv)]⟩
  next => cases h
  next => cases h

/-- An error that reports a token of one of the directives (70_reset_and_hazards.md R221). -/
def ReportsTokenOf (ds : List Directive) (e : LoadError) : Prop := ∃ d ∈ ds, ∃ tok ∈ d.tokens, e.token = some tok

theorem reportsTokenOf_sizeArg {c : List Char} (hc : c ∈ sizeArgs ds) (he : e.token = some c) : ReportsTokenOf ds e :=
  ⟨.size c, mem_sizeArgs.1 hc, c, List.mem_singleton_self c, he⟩

theorem reportsTokenOf_textArg {a : List Char} (ha : a ∈ textArgs ds) (he : e.token = some a) : ReportsTokenOf ds e := by
  obtain ⟨b, hmem⟩ := mem_textArgs.1 ha
  exact ⟨.text a b, hmem, a, List.mem_cons_self, he⟩

theorem loadCapacity_error (h : loadCapacity ds = .error e) :
    (e = .noSize ∧ ∀ c, .size c ∉ ds) ∨ ReportsTokenOf ds e := by
  unfold loadCapacity at h
  split at h
  next c hargs =>
    have hc : c ∈ sizeArgs ds := by simp [hargs]
    obtain he | ⟨v, -, h⟩ := except_bind_error.1 h
    · exact .inr (reportsTokenOf_sizeArg hc (hexValue_error_token he))
    · split at h <;> cases h
      exact .inr (reportsTokenOf_sizeArg hc rfl)
  next hargs =>
    cases h
    exact .inl ⟨rfl, fun c hc => by simpa [hargs] using mem_sizeArgs.2 hc⟩
  next c cs hargs =>
    cases h
    exact .inr (reportsTokenOf_sizeArg (by rw [hargs]; simp) rfl)

theorem loadEntry_error (h : loadEntry ds = .error e) :
    (e = .noText ∧ ∀ a b, .text a b ∉ ds) ∨ ReportsTokenOf ds e := by
  unfold loadEntry at h
  split at h
  next a hargs =>
    obtain he | ⟨v, -, h⟩ := except_bind_error.1 h
    · exact .inr (reportsTokenOf_textArg (a := a) (by simp [hargs]) (hexValue_error_token he))
    · cases h
  next hargs =>
    cases h
    exact .inl ⟨rfl, fun a b hab => by simpa [hargs] using mem_textArgs.2 ⟨b, hab⟩⟩
  next a as hargs =>
    cases h
    exact .inr (reportsTokenOf_textArg (by rw [hargs]; simp) rfl)

/-! ### The image -/

/-- A directive that writes a byte has its address argument among its tokens. -/
theorem Directive.addrToken_mem_tokens {a : Nat} {bs : List Byte} (h : d.writes = .ok (a, bs)) (hbs : bs ≠ []) :
    d.addrToken ∈ d.tokens := by
  cases d with
  | text | byte | long | string => exact List.mem_cons_self
  | size | bss =>
    cases h
    exact absurd rfl hbs
  | unrecognized | malformed => cases h

/-- A directive whose arguments do not read reports one of them. -/
theorem Directive.writes_error (h : d.writes = .error e) : ∃ tok ∈ d.tokens, e.token = some tok := by
  cases d with
  | size | bss => cases h
  | unrecognized tok | malformed tok =>
    cases h
    exact ⟨tok, List.mem_singleton_self tok, rfl⟩
  | text addr bytes =>
    obtain he | ⟨a, -, h⟩ := except_bind_error.1 h
    · exact ⟨addr, by simp [Directive.tokens], hexValue_error_token he⟩
    · obtain he | ⟨bs, -, h⟩ := except_bind_error.1 h
      · exact ⟨bytes, by simp [Directive.tokens], hexBytes_error_token he⟩
      · cases h
  | byte addr value =>
    obtain he | ⟨a, -, h⟩ := except_bind_error.1 h
    · exact ⟨addr, by simp [Directive.tokens], hexValue_error_token he⟩
    · refine ⟨value, by simp [Directive.tokens], ?_⟩
      obtain he | ⟨v, -, h⟩ := except_bind_error.1 h
      · exact hexValue_error_token he
      · split at h <;> cases h
        rfl
  | long addr value =>
    obtain he | ⟨a, -, h⟩ := except_bind_error.1 h
    · exact ⟨addr, by simp [Directive.tokens], hexValue_error_token he⟩
    · obtain he | ⟨v, -, h⟩ := except_bind_error.1 h
      · exact ⟨value, by simp [Directive.tokens], decValue_error_token he⟩
      · cases h
  | string addr chars =>
    obtain he | ⟨a, -, h⟩ := except_bind_error.1 h
    · exact ⟨addr, by simp [Directive.tokens], hexValue_error_token he⟩
    · cases h

/-- Loading a directive and those after it: its bytes are written first, inside [0, Capacity) (70_reset_and_hazards.md R229, R230). -/
theorem loadImage_cons_ok : loadImage cap (d :: ds) m = .ok n ↔ ∃ a bs, d.writes = .ok (a, bs) ∧
    (bs = [] ∨ a + bs.length ≤ cap) ∧ loadImage cap ds (m.writeBytes a bs) = .ok n := by
  rw [loadImage, except_bind_ok]
  constructor
  · rintro ⟨⟨a, bs⟩, hw, h⟩
    simp only at h
    split at h
    next hin => exact ⟨a, bs, hw, hin, h⟩
    next => cases h
  · rintro ⟨a, bs, hw, hin, h⟩
    exact ⟨(a, bs), hw, (if_pos hin).trans h⟩

theorem loadImage_append_ok {ds' : List Directive} :
    loadImage cap (ds ++ ds') m = .ok n ↔ ∃ m', loadImage cap ds m = .ok m' ∧ loadImage cap ds' m' = .ok n := by
  induction ds generalizing m with
  | nil => simp [loadImage]
  | cons d ds ih =>
    simp only [List.cons_append, loadImage_cons_ok, ih]
    constructor
    · rintro ⟨a, bs, hw, hin, m', h, h'⟩
      exact ⟨m', ⟨a, bs, hw, hin, h⟩, h'⟩
    · rintro ⟨m', ⟨a, bs, hw, hin, h⟩, h'⟩
      exact ⟨a, bs, hw, hin, m', h, h'⟩

theorem loadImage_error (h : loadImage cap ds m = .error e) : ReportsTokenOf ds e := by
  induction ds generalizing m with
  | nil => cases h
  | cons d ds ih =>
    rw [loadImage] at h
    obtain he | ⟨⟨a, bs⟩, hw, h⟩ := except_bind_error.1 h
    · exact ⟨d, List.mem_cons_self, Directive.writes_error he⟩
    · simp only at h
      split at h
      next =>
        obtain ⟨d', hd', htok⟩ := ih h
        exact ⟨d', List.mem_cons_of_mem d hd', htok⟩
      next hout =>
        cases h
        exact ⟨d, List.mem_cons_self, d.addrToken, Directive.addrToken_mem_tokens hw (not_or.1 hout).1, rfl⟩

/-- Loading keeps the canonical form. -/
theorem loadImage_wf (h : loadImage cap ds m = .ok n) (hm : m.wf) : n.wf := by
  induction ds generalizing m with
  | nil =>
    cases h
    exact hm
  | cons d ds ih =>
    obtain ⟨a, bs, -, -, h⟩ := loadImage_cons_ok.1 h
    exact ih h (Memory.wf_writeBytes bs hm a)

/-- Loading keeps every cell inside [0, Capacity) (70_reset_and_hazards.md R230). -/
theorem loadImage_bounded (h : loadImage cap ds m = .ok n) (hm : ∀ c ∈ m, c.1 < cap) : ∀ c ∈ n, c.1 < cap := by
  induction ds generalizing m with
  | nil =>
    cases h
    exact hm
  | cons d ds ih =>
    obtain ⟨a, bs, -, hin, h⟩ := loadImage_cons_ok.1 h
    exact ih h (Memory.bounded_writeBytes cap bs hm a hin)

/-- No directive writes the byte at `a`. -/
def Unwritten (ds : List Directive) (a : Nat) : Prop :=
  ∀ d ∈ ds, ∀ start bs, d.writes = .ok (start, bs) → ¬(start ≤ a ∧ a < start + bs.length)

/-- A byte that no directive writes is as it was before the load. -/
theorem loadImage_read_of_unwritten {a : Nat} (h : loadImage cap ds m = .ok n) (hm : m.wf) (ha : Unwritten ds a) :
    n.read a = m.read a := by
  induction ds generalizing m with
  | nil =>
    cases h
    rfl
  | cons d ds ih =>
    obtain ⟨start, bs, hw, -, h⟩ := loadImage_cons_ok.1 h
    obtain ⟨hd, hds⟩ := List.forall_mem_cons.1 ha
    rw [ih h (Memory.wf_writeBytes bs hm start) hds, Memory.read_writeBytes bs hm, if_neg (hd start bs hw)]

/-- A byte is what the last directive that writes it says (70_reset_and_hazards.md R229). -/
theorem loadImage_read_of_written {ds' : List Directive} {start k : Nat} {bs : List Byte}
    (h : loadImage cap (ds ++ d :: ds') m = .ok n) (hm : m.wf) (hw : d.writes = .ok (start, bs)) (hk : k < bs.length)
    (hlast : Unwritten ds' (start + k)) : n.read (start + k) = bs.getD k 0 := by
  obtain ⟨m', hbefore, h⟩ := loadImage_append_ok.1 h
  obtain ⟨start', bs', hw', -, hafter⟩ := loadImage_cons_ok.1 h
  cases hw.symm.trans hw'
  have hm' := loadImage_wf hbefore hm
  rw [loadImage_read_of_unwritten hafter (Memory.wf_writeBytes bs hm' start) hlast, Memory.read_writeBytes bs hm',
    if_pos ⟨by omega, by omega⟩, Nat.add_sub_cancel_left]

/-! ### The load -/

theorem load_ok {p : Loaded} (h : load ds = .ok p) : loadCapacity ds = .ok p.capacity ∧ loadEntry ds = .ok p.entry ∧
    loadImage p.capacity.val ds [] = .ok p.image := by
  obtain ⟨capacity, hc, h⟩ := except_bind_ok.1 h
  obtain ⟨entry, he, h⟩ := except_bind_ok.1 h
  obtain ⟨image, hi, h⟩ := except_bind_ok.1 h
  cases h
  exact ⟨hc, he, hi⟩

theorem load_error (h : load ds = .error e) :
    loadCapacity ds = .error e ∨ loadEntry ds = .error e ∨ ∃ cap, loadImage cap ds [] = .error e := by
  obtain hc | ⟨capacity, -, h⟩ := except_bind_error.1 h
  · exact .inl hc
  obtain he | ⟨entry, -, h⟩ := except_bind_error.1 h
  · exact .inr (.inl he)
  obtain hi | ⟨image, -, h⟩ := except_bind_error.1 h
  · exact .inr (.inr ⟨_, hi⟩)
  · cases h

/-! ### The statements -/

/-- Settles O14: each part of the launch is what its part of the loader answers, and the image begins with nothing written. -/
theorem loadedLaunch : Obligations.LoadedLaunch := by
  unfold Obligations.LoadedLaunch
  intro l ds p hop h
  obtain ⟨hcapacity, hentry, himage⟩ := load_ok h
  have hwf := loadImage_wf himage Memory.wf_nil
  have hbounded := loadImage_bounded himage fun _ hc => absurd hc List.not_mem_nil
  refine ⟨⟨hwf, hbounded, hop⟩, loadEntry_ok hentry, loadCapacity_ok hcapacity, fun a ha => ?_, ?_⟩
  · exact loadImage_read_of_unwritten himage Memory.wf_nil ha
  · rintro before d after start bs rfl hw k hk hlast
    exact loadImage_read_of_written himage Memory.wf_nil hw hk hlast

/-- Settles O60, by the part of the loader that refuses. -/
theorem loadErrorsReportTheirToken : Obligations.LoadErrorsReportTheirToken := by
  unfold Obligations.LoadErrorsReportTheirToken
  intro ds e h
  obtain hc | he | ⟨cap, hi⟩ := load_error h
  · exact (loadCapacity_error hc).imp_right .inr
  · exact .inr (loadEntry_error he)
  · exact .inr (.inr (loadImage_error hi))

end Sys2Proof.Machine
end
